-- ==== Sys2Proof/Word.lean ====
section
/-! DEFINITION. The word and byte types of MD5CORE and a group of four words.
Every datapath value is an unsigned 32-bit word (`spec/40_compression_core.md` R116). -/

namespace Sys2Proof

/-- A state word, working register, schedule word or `K` entry (`WORD_BITS`, `spec/00_scope.md` R8). -/
abbrev Word := BitVec 32

/-- A message byte, a byte of `BUF` or of `DIGEST` (`DATA_BITS`, `spec/00_scope.md` R9). -/
abbrev Byte := BitVec 8

/-- Four 32-bit words: the State `(A, B, C, D)` = `H[0..3]` (`spec/10_state.md` R20), or the
working registers `a, b, c, d` (`spec/10_state.md` R22). -/
structure Quad where
  a : Word
  b : Word
  c : Word
  d : Word
  deriving DecidableEq, Repr

end Sys2Proof
end

