-- ==== Sys2Proof/Syntax.lean ====
section
/-! DEFINITION. The instructions: one constructor for every row of `spec/opcode_table.json`. -/

namespace Sys2Proof

/-- The 25 rows of the opcode table. The eight `data` bits of `NEW`, `FIN` and `FINR` select nothing
(`spec/30_encoding.md` R96), so those three carry no operand. -/
inductive Instr where
  /-- `NEW`: create a fresh accumulator (`spec/41_streaming_accumulator.md` R150). -/
  | new
  /-- `UPDB d`: append one byte (`spec/41_streaming_accumulator.md` R152). -/
  | updb (d : Byte)
  /-- `FIN`: finalise and consume (`spec/42_finalizer.md` R182). -/
  | fin
  /-- `FINR`: finalise and reinitialise (`spec/42_finalizer.md` R184). -/
  | finr
  /-- `RND.F`: the round step with index `0*16 + j` (`spec/40_compression_core.md` R130). -/
  | rndF (j : BitVec 4)
  /-- `RND.G`: the round step with index `1*16 + j` (`spec/40_compression_core.md` R131). -/
  | rndG (j : BitVec 4)
  /-- `RND.H`: the round step with index `2*16 + j` (`spec/40_compression_core.md` R132). -/
  | rndH (j : BitVec 4)
  /-- `RND.I`: the round step with index `3*16 + j` (`spec/40_compression_core.md` R133). -/
  | rndI (j : BitVec 4)
  /-- `SEED`: load the working registers (`spec/40_compression_core.md` R135). -/
  | seed
  /-- `FEEDFWD`: add the old State and commit (`spec/40_compression_core.md` R137). -/
  | feedfwd
  /-- `COMPRESS`: `SEED`, 64 rounds, `FEEDFWD` (`spec/40_compression_core.md` R138). -/
  | compress
  /-- `PAD`: the MD5 padding and its one or two compressions (`spec/42_finalizer.md` R171 to R176). -/
  | pad
  /-- `SERIALIZE`: write `DIGEST` and `DVALID` (`spec/42_finalizer.md` R178). -/
  | serialize
  /-- `ADD32(x, y)` (`spec/40_compression_core.md` R110). -/
  | add32 (x y : Word)
  /-- `ROTL32(x, s)` (`spec/40_compression_core.md` R111). -/
  | rotl32 (x : Word) (s : Nat)
  /-- `NOT32(x)` (`spec/40_compression_core.md` R112). -/
  | not32 (x : Word)
  /-- `AND32(x, y)` (`spec/40_compression_core.md` R113). -/
  | and32 (x y : Word)
  /-- `OR32(x, y)` (`spec/40_compression_core.md` R114). -/
  | or32 (x y : Word)
  /-- `XOR32(x, y)` (`spec/40_compression_core.md` R115). -/
  | xor32 (x y : Word)
  /-- The round function `F(b, c, d)` (`spec/40_compression_core.md` R120). -/
  | fnF (b c d : Word)
  /-- The round function `G(b, c, d)` (`spec/40_compression_core.md` R121). -/
  | fnG (b c d : Word)
  /-- The round function `H(b, c, d)` (`spec/40_compression_core.md` R122). -/
  | fnH (b c d : Word)
  /-- The round function `I(b, c, d)` (`spec/40_compression_core.md` R123). -/
  | fnI (b c d : Word)
  /-- `UPDATE data`: a run of `UPDB` (`spec/41_streaming_accumulator.md` R155). -/
  | update (data : List Byte)
  /-- `HASH data`: `NEW; UPDATE data; FIN` (`spec/42_finalizer.md` R186). -/
  | hash (data : List Byte)
  deriving DecidableEq, Repr

end Sys2Proof
end

