-- ==== Sys2Proof/WellFormed.lean ====
section
/-! DEFINITION. Which instruction terms the spec admits. Bytes and round fields are in range by
their types; the one operand that can be out of range is the rotation amount. -/

namespace Sys2Proof

/-- The amounts for which `spec/40_compression_core.md` R111 gives the pseudocode of `ROTL32`:
`1 <= s <= 31`. (Inside the unit the amount is always an entry of `S`, 4 to 23.) -/
def rotationAmountOk (s : Nat) : Bool := 1 ≤ s && s ≤ 31

/-- Every operand is in the range the spec gives it. -/
def Instr.wellFormed : Instr → Bool
  | .new => true
  | .updb _ => true
  | .fin => true
  | .finr => true
  | .rndF _ => true
  | .rndG _ => true
  | .rndH _ => true
  | .rndI _ => true
  | .seed => true
  | .feedfwd => true
  | .compress => true
  | .pad => true
  | .serialize => true
  | .add32 _ _ => true
  | .rotl32 _ s => rotationAmountOk s
  | .not32 _ => true
  | .and32 _ _ => true
  | .or32 _ _ => true
  | .xor32 _ _ => true
  | .fnF _ _ _ => true
  | .fnG _ _ _ => true
  | .fnH _ _ _ => true
  | .fnI _ _ _ => true
  | .update _ => true
  | .hash _ => true

end Sys2Proof
end

