-- ==== Sys2Proof/Decode.lean ====
section
/-! DEFINITION. The decoder, total on any bytes and rejecting by name, and after it the encoder.
Two things are encoded (`spec/30_encoding.md` R80): the 10-bit command word and the 6-bit round
control word. Neither is stored in a memory, so the byte containers used here are the model's own
(notes/assumptions/2.md). -/

namespace Sys2Proof

/-- An encoded word, with the format it is written in. -/
inductive Code where
  /-- Format `CMD`: `cmd[9:8] = op`, `cmd[7:0] = data` (`spec/30_encoding.md` R84). -/
  | cmd (w : BitVec 10)
  /-- Format `RND`: `RI[5:4] = FS`, `RI[3:0] = J` (`spec/30_encoding.md` R88). -/
  | rnd (w : BitVec 6)
  deriving DecidableEq, Repr

/-- Why a byte string is no container of an encoded word. Every command word and every round control
word is legal (`spec/30_encoding.md` R92), so nothing else is rejected. -/
inductive DecodeError where
  /-- The byte string is neither one byte (a round control word) nor two (a command word). -/
  | notAContainer (len : Nat)
  /-- A two-byte container with a bit set above bit 9. -/
  | aboveCommandWord (w : Nat)
  /-- A one-byte container with a bit set above bit 5. -/
  | aboveRoundWord (w : Nat)
  deriving DecidableEq, Repr

/-- The `data` field of a command word (`spec/30_encoding.md` R85, R93). -/
def cmdData (w : BitVec 10) : Byte := w.setWidth 8

/-- The four commands by match and mask (`spec/30_encoding.md` R86). Total: the last arm is the
fourth value of `op` (R92). The `data` bits of `NEW`, `FIN` and `FINR` are ignored (R96). -/
def decodeCmd (w : BitVec 10) : Instr :=
  if w &&& 0x300#10 = 0x000#10 then .new
  else if w &&& 0x300#10 = 0x100#10 then .updb (cmdData w)
  else if w &&& 0x300#10 = 0x200#10 then .fin
  else .finr

/-- The `J` field of a round control word (`spec/30_encoding.md` R88). -/
def rndJ (w : BitVec 6) : BitVec 4 := w.setWidth 4

/-- The four round micro-operations by match and mask (`spec/30_encoding.md` R90). Total: the last arm
is the fourth value of `FS`. -/
def decodeRnd (w : BitVec 6) : Instr :=
  if w &&& 0x30#6 = 0x00#6 then .rndF (rndJ w)
  else if w &&& 0x30#6 = 0x10#6 then .rndG (rndJ w)
  else if w &&& 0x30#6 = 0x20#6 then .rndH (rndJ w)
  else .rndI (rndJ w)

/-- Decoding of an encoded word is total (`spec/30_encoding.md` R92). -/
def decode : Code → Instr
  | .cmd w => decodeCmd w
  | .rnd w => decodeRnd w

/-- Reads the container of an encoded word: one byte for a round control word, two bytes, the low byte
first, for a command word. DESIGN CHOICE: notes/assumptions/2.md. -/
def codeOfBytes : List Byte → Except DecodeError Code
  | [b] =>
    if b.toNat < 64 then .ok (.rnd (BitVec.ofNat 6 b.toNat)) else .error (.aboveRoundWord b.toNat)
  | [lo, hi] =>
    let w := lo.toNat + 256 * hi.toNat
    if w < 1024 then .ok (.cmd (BitVec.ofNat 10 w)) else .error (.aboveCommandWord w)
  | bs => .error (.notAContainer bs.length)

/-- The decoder on bytes. -/
def decodeBytes (bs : List Byte) : Except DecodeError Instr :=
  (codeOfBytes bs).map decode

/-- The container of an encoded word. -/
def Code.bytes : Code → List Byte
  | .cmd w => [BitVec.ofNat 8 w.toNat, BitVec.ofNat 8 (w.toNat / 256)]
  | .rnd w => [BitVec.ofNat 8 w.toNat]

/-- The words of an instruction. The command words are the canonical ones (`spec/30_encoding.md` R102),
a round's word is its index (R90), a pseudo-instruction is its expansion (R100), and the unencoded
steps and operators have no word (R91). -/
def encode : Instr → List Code
  | .new => [.cmd (0b00#2 ++ 0#8)]
  | .updb d => [.cmd (0b01#2 ++ d)]
  | .fin => [.cmd (0b10#2 ++ 0#8)]
  | .finr => [.cmd (0b11#2 ++ 0#8)]
  | .rndF j => [.rnd (0b00#2 ++ j)]
  | .rndG j => [.rnd (0b01#2 ++ j)]
  | .rndH j => [.rnd (0b10#2 ++ j)]
  | .rndI j => [.rnd (0b11#2 ++ j)]
  | .seed => []
  | .feedfwd => []
  | .compress => []
  | .pad => []
  | .serialize => []
  | .add32 _ _ => []
  | .rotl32 _ _ => []
  | .not32 _ => []
  | .and32 _ _ => []
  | .or32 _ _ => []
  | .xor32 _ _ => []
  | .fnF _ _ _ => []
  | .fnG _ _ _ => []
  | .fnH _ _ _ => []
  | .fnI _ _ _ => []
  | .update data => data.map fun d => .cmd (0b01#2 ++ d)
  | .hash data => .cmd (0b00#2 ++ 0#8) :: data.map (fun d => .cmd (0b01#2 ++ d)) ++ [.cmd (0b10#2 ++ 0#8)]

/-- The `n` low bytes of `w`, the lowest first. -/
def bytesOfNat : Nat → Nat → List Byte
  | 0, _ => []
  | n + 1, w => BitVec.ofNat 8 w :: bytesOfNat n (w / 256)

/-- The encoded word a table word stands for: its whole bytes laid out low byte first, and read as a
container. A word with bits beyond those bytes has none. -/
def codeOfTable (nbits w : Nat) : Except DecodeError Code :=
  let n := (nbits + 7) / 8
  if w < 256 ^ n then codeOfBytes (bytesOfNat n w) else .error (.notAContainer n)

/-- What the decoder reads from a table word of `nbits` bits: 16 (or 10) for the rows of format `CMD`,
8 (or 6) for the rows of format `RND`, none for a row without an encoding. -/
def decodeTableWord (nbits w : Nat) : Option Instr :=
  (codeOfTable nbits w).toOption.map decode

end Sys2Proof
end

