-- ==== Sys2Proof/Config.lean ====
section
/-! DEFINITION. The values this model names where the spec gives none (all DESIGN CHOICE).
The spec's own constants (`IV`, `K`, `S`, the padding parameters) are in Machine/Constants.lean. -/

namespace Sys2Proof.Config

/-- What a byte of `BUF` reads as while nothing has written it. `spec/10_state.md` R44 leaves it
unspecified. DESIGN CHOICE, unsafe: notes/assumptions/6.md. -/
def unwritten : Byte := 0x00#8

/-- `a, b, c, d` in `State.reset`. `spec/10_state.md` R44 leaves them unspecified.
DESIGN CHOICE, unsafe: notes/assumptions/5.md. -/
def resetWork : Quad := ⟨0#32, 0#32, 0#32, 0#32⟩

/-- `RI` in `State.reset`. `spec/10_state.md` R44 leaves it unspecified.
DESIGN CHOICE, unsafe: notes/assumptions/5.md. -/
def resetRi : BitVec 6 := 0#6

/-- Every byte of `DIGEST` in `State.reset`. `spec/10_state.md` R44 leaves them unspecified.
DESIGN CHOICE, unsafe: notes/assumptions/5.md. -/
def resetDigestByte : Byte := 0x00#8

/-- The model's own field `wire` in `State.reset`. DESIGN CHOICE, safe: notes/assumptions/10.md. -/
def resetWire : Word := 0#32

end Sys2Proof.Config
end

