-- ==== Sys2Proof/Machine/Constants.lean ====
section
/-! DEFINITION. The constants of the unit: `IV`, the two ROMs `K` and `S`, and the padding parameters. -/

namespace Sys2Proof.Machine

/-- `IV`, the initial State (`spec/10_state.md` R25). -/
def iv : Quad := ⟨0x67452301#32, 0xefcdab89#32, 0x98badcfe#32, 0x10325476#32⟩

/-- `PAD_MARKER` (`spec/00_scope.md` R8). -/
def padMarker : Nat := 0x80

/-- `PAD_SPLIT`: the largest cursor value for one-block finalisation (`spec/00_scope.md` R8,
`spec/42_finalizer.md` R172, R173). -/
def padSplit : Nat := 55

/-- `LEN_FIELD_POS`: where the length field begins (`spec/00_scope.md` R8). -/
def lenFieldPos : Nat := 56

/-- `LEN_FIELD_BYTES` (`spec/00_scope.md` R8). -/
def lenFieldBytes : Nat := 8

/-- `BLOCK_BYTES` (`spec/00_scope.md` R8). -/
def blockBytes : Nat := 64

/-- `ROUNDS` (`spec/00_scope.md` R8). -/
def rounds : Nat := 64

/-- `K[0..16]`, the constants of the rounds that use `F`. -/
def kRowF : List Word :=
  [0xd76aa478#32, 0xe8c7b756#32, 0x242070db#32, 0xc1bdceee#32,
   0xf57c0faf#32, 0x4787c62a#32, 0xa8304613#32, 0xfd469501#32,
   0x698098d8#32, 0x8b44f7af#32, 0xffff5bb1#32, 0x895cd7be#32,
   0x6b901122#32, 0xfd987193#32, 0xa679438e#32, 0x49b40821#32]

/-- `K[16..32]`, the constants of the rounds that use `G`. -/
def kRowG : List Word :=
  [0xf61e2562#32, 0xc040b340#32, 0x265e5a51#32, 0xe9b6c7aa#32,
   0xd62f105d#32, 0x02441453#32, 0xd8a1e681#32, 0xe7d3fbc8#32,
   0x21e1cde6#32, 0xc33707d6#32, 0xf4d50d87#32, 0x455a14ed#32,
   0xa9e3e905#32, 0xfcefa3f8#32, 0x676f02d9#32, 0x8d2a4c8a#32]

/-- `K[32..48]`, the constants of the rounds that use `H`. -/
def kRowH : List Word :=
  [0xfffa3942#32, 0x8771f681#32, 0x6d9d6122#32, 0xfde5380c#32,
   0xa4beea44#32, 0x4bdecfa9#32, 0xf6bb4b60#32, 0xbebfbc70#32,
   0x289b7ec6#32, 0xeaa127fa#32, 0xd4ef3085#32, 0x04881d05#32,
   0xd9d4d039#32, 0xe6db99e5#32, 0x1fa27cf8#32, 0xc4ac5665#32]

/-- `K[48..64]`, the constants of the rounds that use `I`. -/
def kRowI : List Word :=
  [0xf4292244#32, 0x432aff97#32, 0xab9423a7#32, 0xfc93a039#32,
   0x655b59c3#32, 0x8f0ccc92#32, 0xffeff47d#32, 0x85845dd1#32,
   0x6fa87e4f#32, 0xfe2ce6e0#32, 0xa3014314#32, 0x4e0811a1#32,
   0xf7537e82#32, 0xbd3af235#32, 0x2ad7d2bb#32, 0xeb86d391#32]

/-- The constant ROM `K` (`spec/20_memory.md` R53, R54). -/
def kRom (i : BitVec 6) : Word :=
  (kRowF ++ kRowG ++ kRowH ++ kRowI).getD i.toNat 0#32

/-- `S[0..16]` (`spec/20_memory.md` R55). -/
def sRowF : List (BitVec 5) := [7, 12, 17, 22, 7, 12, 17, 22, 7, 12, 17, 22, 7, 12, 17, 22]

/-- `S[16..32]` (`spec/20_memory.md` R55). -/
def sRowG : List (BitVec 5) := [5, 9, 14, 20, 5, 9, 14, 20, 5, 9, 14, 20, 5, 9, 14, 20]

/-- `S[32..48]` (`spec/20_memory.md` R55). -/
def sRowH : List (BitVec 5) := [4, 11, 16, 23, 4, 11, 16, 23, 4, 11, 16, 23, 4, 11, 16, 23]

/-- `S[48..64]` (`spec/20_memory.md` R55). -/
def sRowI : List (BitVec 5) := [6, 10, 15, 21, 6, 10, 15, 21, 6, 10, 15, 21, 6, 10, 15, 21]

/-- The constant ROM `S` of shift amounts, 5 bits an entry (`spec/20_memory.md` R55). -/
def sRom (i : BitVec 6) : BitVec 5 :=
  (sRowF ++ sRowG ++ sRowH ++ sRowI).getD i.toNat 0#5

end Sys2Proof.Machine
end

