-- ==== Sys2Proof/Machine/State.lean ====
section
/-! DEFINITION. The state of MD5CORE as plain data, the reasons a step can stop, and the state after
reset (`spec/10_state.md` sections 1 and 8, `spec/70_reset_and_hazards.md` R230). -/

namespace Sys2Proof.Machine

/-- `PHASE` (`spec/10_state.md` R33). -/
inductive Phase where
  /-- A live accumulator exists. -/
  | acc
  /-- The accumulator was consumed by `FIN`. -/
  | spent
  deriving DecidableEq, Repr

/-- The staging buffer `BUF` (`spec/20_memory.md` R50): the bytes that differ from what an unlisted
address reads as, at strictly rising addresses. -/
abbrev Memory := List Host.Cell

/-- One micro-operation of the sequencer: a part of a command that `spec/70_reset_and_hazards.md` R251
counts (a store with its increment, a round, a padding store, ...). The split of the padding into
these parts is the model's own (notes/assumptions/18.md). -/
inductive Micro where
  /-- `TOTAL <- TOTAL + 1; BUF[CUR] <- d` (`spec/41_streaming_accumulator.md` R152). -/
  | store (d : Byte)
  /-- `CUR <- CUR + 1` (`spec/41_streaming_accumulator.md` R152). -/
  | bumpCursor
  /-- `CUR <- 0` after a triggered compression (`spec/41_streaming_accumulator.md` R152). -/
  | clearCursor
  /-- `SEED` (`spec/40_compression_core.md` R135). -/
  | seed
  /-- The round step whose control word is `RI` (`spec/30_encoding.md` R88). -/
  | round
  /-- `FEEDFWD` (`spec/40_compression_core.md` R137). -/
  | feedfwd
  /-- `BUF[CUR] <- 0x80` (`spec/42_finalizer.md` R172). -/
  | marker
  /-- Zero fill of positions `CUR+1 .. 56`, the one-block case (`spec/42_finalizer.md` R175). -/
  | zeroToLength
  /-- Zero fill of positions `CUR+1 .. 64`, the first of two blocks (`spec/42_finalizer.md` R176). -/
  | zeroToEnd
  /-- Zero fill of positions `0 .. 56`, the second padding block (`spec/42_finalizer.md` R176). -/
  | zeroHead
  /-- The length field into positions `56 .. 64` (`spec/42_finalizer.md` R174). -/
  | length
  /-- `SERIALIZE` (`spec/42_finalizer.md` R178). -/
  | serialize
  /-- `SERIALIZE; PHASE <- SPENT`, the end of `FIN` (`spec/42_finalizer.md` R182), at one edge: until
  `cmd_ready` returns the host sees the previous digest (`spec/70_reset_and_hazards.md` R242,
  notes/assumptions/21.md). -/
  | serializeSpend
  /-- `SERIALIZE`, then the writes of `NEW`, the end of `FINR` (`spec/42_finalizer.md` R184), at one edge
  (notes/assumptions/21.md). -/
  | serializeRenew
  /-- The writes of `NEW` (`spec/41_streaming_accumulator.md` R150). -/
  | reinit
  deriving DecidableEq, Repr

/-- What the input ports carry at one rising edge of `clk` (`spec/30_encoding.md` R81), and the timing the
spec leaves open (`LAT_ROUND`, `LAT_ACCEPT`, `spec/00_scope.md` R10) as a free choice. -/
structure Edge where
  /-- `rst`. -/
  rst : Bool
  /-- `cmd_valid`. -/
  valid : Bool
  /-- `cmd`. -/
  cmd : BitVec 10
  /-- Whether the micro-operation in progress completes at this edge (notes/assumptions/4.md). -/
  advance : Bool
  deriving DecidableEq, Repr

/-- What the outside presents next (notes/assumptions/1.md and 3.md). -/
inductive Event where
  /-- A command word the host offers until it is accepted and completed, run as one atomic transition
  (`spec/30_encoding.md` R83). -/
  | command (w : BitVec 10)
  /-- One rising edge of `clk` (`spec/30_encoding.md` R82). -/
  | edge (e : Edge)
  deriving DecidableEq, Repr

/-- Why a step can fault: never. "The core has no failure modes" (`spec/60_exceptions.md` R200, R201):
no exception cause exists, every access is in range by its type (`spec/20_memory.md` R61), and so
this type has no constructor. -/
inductive Fault where
  deriving DecidableEq, Repr

/-- Why a step can be refused. -/
inductive Refusal where
  /-- An instruction that has no meaning yet, raised by an arm of `exec` only. Safe: nothing is
  claimed of such a run. -/
  | notModelled (mnemonic : String)
  /-- `UPDB`, `FIN` or `FINR` (and a non-empty `UPDATE`) in phase `SPENT`, raised by their meanings:
  "This spec's treatment is *refuse*" (`spec/60_exceptions.md` R204). Safe: nothing is claimed after
  it (notes/assumptions/14.md). -/
  | consumed
  /-- The host changed `cmd` or dropped `cmd_valid` while `cmd_valid = 1` and `cmd_ready = 0`, raised by
  the command port: `refuse` (`spec/93_implementation_defined.md` U12). Safe (notes/assumptions/15.md; that
  the first edge with `cmd_ready = 1` is covered too, notes/assumptions/22.md). -/
  | handshake
  deriving DecidableEq, Repr

/-- All state of the unit (`spec/10_state.md` section 1; `K` and `S` are constant and stand in
Machine/Constants.lean), with four fields of the model's own: `todo`, `offered`, `inbox`, `wire`. -/
@[ext]
structure State where
  /-- `H[0..3]` = `A, B, C, D` (`spec/10_state.md` R20). -/
  h : Quad
  /-- The working registers `a, b, c, d` (`spec/10_state.md` R22). -/
  work : Quad
  /-- `RI`, the round index (`spec/10_state.md` R27). -/
  ri : BitVec 6
  /-- `CUR`, the buffer cursor (`spec/10_state.md` R28). -/
  cur : BitVec 6
  /-- `TOTAL`, the byte counter (`spec/10_state.md` R30, R31). -/
  total : BitVec 64
  /-- `PHASE` (`spec/10_state.md` R33). -/
  phase : Phase
  /-- `DVALID` (`spec/10_state.md` R36). -/
  dvalid : Bool
  /-- `BUSY` (`spec/10_state.md` R37). -/
  busy : Bool
  /-- `DIGEST[0..15]` (`spec/10_state.md` R39). -/
  digest : Vector Byte 16
  /-- `BUF[0..63]` (`spec/20_memory.md` R50). -/
  buf : Memory
  /-- What is left to do of the command in progress (notes/assumptions/3.md). -/
  todo : List Micro
  /-- The command word the host holds while the unit is not ready (notes/assumptions/15.md). -/
  offered : Option (BitVec 10)
  /-- What the outside presents next, oldest first (notes/assumptions/1.md). -/
  inbox : List Event
  /-- The value last driven on the output of a combinational operator (notes/assumptions/10.md). -/
  wire : Word
  deriving DecidableEq, Repr

/-- The machine right after hardware reset (`spec/10_state.md` R44, `spec/70_reset_and_hazards.md` R230):
Fresh, `DVALID = 0`, `BUSY = 0`. `work`, `ri` and `digest` are unspecified there and hold the values of
Config.lean (notes/assumptions/5.md). -/
def State.reset : State where
  h := iv
  work := Config.resetWork
  ri := Config.resetRi
  cur := 0#6
  total := 0#64
  phase := .acc
  dvalid := false
  busy := false
  digest := Vector.replicate 16 Config.resetDigestByte
  buf := []
  todo := []
  offered := none
  inbox := []
  wire := Config.resetWire

end Sys2Proof.Machine
end

