-- ==== Sys2Proof/Machine/Ops.lean ====
section
/-! DEFINITION. The named operations over `BUF` and the registers. The unit takes no exception
(`spec/60_exceptions.md` R200, R211, R212); the two abnormal events it has stand here as shared
operations: hardware reset (`hardReset`) and the refusal in phase `SPENT` (`whileAccumulating`). -/

namespace Sys2Proof.Machine

/-- The byte at an address of the buffer; what nothing has written reads as `Config.unwritten`. -/
def Memory.read : Memory → Nat → Byte
  | [], _ => Config.unwritten
  | (a', v') :: m, a => if a = a' then v' else Memory.read m a

/-- Writes one byte and keeps the canonical form: writing what an unlisted address reads as removes the
entry. -/
def Memory.write : Memory → Nat → Byte → Memory
  | [], a, v => if v = Config.unwritten then [] else [(a, v)]
  | (a', v') :: m, a, v =>
    if a < a' then (if v = Config.unwritten then (a', v') :: m else (a, v) :: (a', v') :: m)
    else if a = a' then (if v = Config.unwritten then m else (a, v) :: m)
    else (a', v') :: Memory.write m a v

/-- Every address is at least `lo`, they rise strictly, each is inside the buffer, and no entry equals
what an unlisted address reads as. -/
def Memory.wfFrom : Nat → Memory → Bool
  | _, [] => true
  | lo, (a, v) :: m => lo ≤ a && a < blockBytes && v != Config.unwritten && Memory.wfFrom (a + 1) m

/-- The canonical form of the buffer's contents. -/
def Memory.wf (m : Memory) : Bool := Memory.wfFrom 0 m

/-- `MemRead(addr, n)`: `BUF[addr] + 2^8*BUF[addr+1] + ...`, little-endian (`spec/00_scope.md` R15). -/
def memRead (m : Memory) (addr : Nat) : Nat → Nat
  | 0 => 0
  | n + 1 => (m.read addr).toNat + 256 * memRead m (addr + 1) n

/-- `MemWrite(addr, n, v)`: `BUF[addr+k] <- (v >> 8k) mod 256` for `k` in `0..n` (`spec/00_scope.md` R15). -/
def memWrite (m : Memory) (addr : Nat) : Nat → Nat → Memory
  | 0, _ => m
  | n + 1, v => memWrite (m.write addr (BitVec.ofNat 8 v)) (addr + 1) n (v / 256)

/-- `n` bytes `0x00` from `addr` on (`spec/42_finalizer.md` R175, R176). -/
def zeroFill (m : Memory) (addr : Nat) : Nat → Memory
  | 0 => m
  | n + 1 => zeroFill (memWrite m addr 1 0x00) (addr + 1) n

/-- Byte `k` of a word, the least significant first: `(w >> 8k) mod 256`. -/
def wordByte (w : Word) (k : Nat) : Byte := BitVec.ofNat 8 (w.toNat >>> (8 * k))

/-- The sixteen bytes of four words, each little-endian, in the order `A, B, C, D`
(`spec/42_finalizer.md` R178). -/
def digestOf (q : Quad) : Vector Byte 16 :=
  #v[wordByte q.a 0, wordByte q.a 1, wordByte q.a 2, wordByte q.a 3,
     wordByte q.b 0, wordByte q.b 1, wordByte q.b 2, wordByte q.b 3,
     wordByte q.c 0, wordByte q.c 1, wordByte q.c 2, wordByte q.c 3,
     wordByte q.d 0, wordByte q.d 1, wordByte q.d 2, wordByte q.d 3]

/-- The writes of `NEW`: `H <- IV; TOTAL <- 0; CUR <- 0; PHASE <- ACC`
(`spec/41_streaming_accumulator.md` R150, `spec/42_finalizer.md` R184). -/
def reinitialise (s : State) : State :=
  { s with h := iv, total := 0#64, cur := 0#6, phase := .acc }

/-- Hardware reset (`spec/70_reset_and_hazards.md` R230): the writes of `NEW`, and `DVALID <- 0`,
`BUSY <- 0`. A command in progress is abandoned (R232). `BUF`, `DIGEST`, `a, b, c, d` and `RI` "are not
written" (notes/assumptions/9.md). -/
def hardReset (s : State) : State :=
  { reinitialise s with dvalid := false, busy := false, todo := [], offered := none }

/-- The first action of `UPDB`, `FIN` and `FINR`: refuse unless `PHASE = ACC`
(`spec/60_exceptions.md` R204). -/
def whileAccumulating (s : State) (k : State → State) : Host.Outcome State Fault Refusal :=
  match s.phase with
  | .acc => .next (k s)
  | .spent => .refused .consumed

/-- Runs the second computation from the state the first one ends in. -/
def andThen (r : Host.Outcome State Fault Refusal) (k : State → Host.Outcome State Fault Refusal) :
    Host.Outcome State Fault Refusal :=
  match r with
  | .next s => k s
  | .fault f => .fault f
  | .refused e => .refused e

end Sys2Proof.Machine
end

