-- ==== Sys2Proof/Machine/Flags.lean ====
section
/-! DEFINITION. The flags. There are no condition codes (`spec/10_state.md` R38): no operator records a
carry, an overflow or a zero. The three one-bit flags are `DVALID`, `BUSY` and `PHASE`; the tests of
`CUR` that decide the block trigger and the padding branch stand beside them. -/

namespace Sys2Proof.Machine

/-- `DVALID <- 1`, the flag half of `SERIALIZE` (`spec/10_state.md` R36). -/
def markDigestValid (s : State) : State := { s with dvalid := true }

/-- `PHASE <- SPENT`, the end of `FIN` (`spec/42_finalizer.md` R182). -/
def markSpent (s : State) : State := { s with phase := .spent }

/-- `cmd_ready = not BUSY` (`spec/10_state.md` R37). -/
def ready (s : State) : Bool := !s.busy

/-- `CUR = 63`: the byte about to be placed completes the block (`spec/41_streaming_accumulator.md` R153). -/
def blockFull (s : State) : Bool := s.cur == 63#6

/-- `CUR <= 55`: marker and length field fit in one block (`spec/42_finalizer.md` R172). -/
def fitsOneBlock (s : State) : Bool := s.cur.toNat ≤ padSplit

end Sys2Proof.Machine
end

