-- ==== Sys2Proof/Machine/Alu.lean ====
section
/-! DEFINITION. The combinational operators of the datapath (`spec/40_compression_core.md` sections 1
and 2) and the meanings of their rows. An operator writes no register (`spec/10_state.md` R24): the
row's meaning drives its value on `wire`, a field of the model's own (notes/assumptions/10.md). -/

namespace Sys2Proof.Machine

/-- `ADD32`: addition modulo `2^32`, the carry out discarded (`spec/40_compression_core.md` R110). -/
def add32 (x y : Word) : Word := BitVec.ofNat 32 (x.toNat + y.toNat)

/-- `ROTL32`: rotate left by `s mod 32` (`spec/40_compression_core.md` R111). -/
def rotl32 (x : Word) (s : Nat) : Word := x <<< (s % 32) ||| x >>> (32 - s % 32)

/-- `NOT32`: complement of 32 bits (`spec/40_compression_core.md` R112). -/
def not32 (x : Word) : Word := x ^^^ 0xffffffff#32

/-- `AND32` (`spec/40_compression_core.md` R113). -/
def and32 (x y : Word) : Word := x &&& y

/-- `OR32` (`spec/40_compression_core.md` R114). -/
def or32 (x y : Word) : Word := x ||| y

/-- `XOR32` (`spec/40_compression_core.md` R115). -/
def xor32 (x y : Word) : Word := x ^^^ y

/-- `F(b, c, d) = (b & c) | (~b & d)` (`spec/40_compression_core.md` R120). -/
def roundF (b c d : Word) : Word := or32 (and32 b c) (and32 (not32 b) d)

/-- `G(b, c, d) = (d & b) | (~d & c)` (`spec/40_compression_core.md` R121). -/
def roundG (b c d : Word) : Word := or32 (and32 d b) (and32 (not32 d) c)

/-- `H(b, c, d) = b ^ c ^ d` (`spec/40_compression_core.md` R122). -/
def roundH (b c d : Word) : Word := xor32 (xor32 b c) d

/-- `I(b, c, d) = c ^ (b | ~d)` (`spec/40_compression_core.md` R123). -/
def roundI (b c d : Word) : Word := xor32 c (or32 b (not32 d))

/-- Drives a combinational value on `wire`. -/
def driveWire (v : Word) (s : State) : State := { s with wire := v }

/-- `ADD32` (`spec/40_compression_core.md` R110). -/
def execAdd32 (x y : Word) (s : State) : Host.Outcome State Fault Refusal :=
  .next (driveWire (add32 x y) s)

/-- `ROTL32` (`spec/40_compression_core.md` R111). -/
def execRotl32 (x : Word) (n : Nat) (s : State) : Host.Outcome State Fault Refusal :=
  .next (driveWire (rotl32 x n) s)

/-- `NOT32` (`spec/40_compression_core.md` R112). -/
def execNot32 (x : Word) (s : State) : Host.Outcome State Fault Refusal :=
  .next (driveWire (not32 x) s)

/-- `AND32` (`spec/40_compression_core.md` R113). -/
def execAnd32 (x y : Word) (s : State) : Host.Outcome State Fault Refusal :=
  .next (driveWire (and32 x y) s)

/-- `OR32` (`spec/40_compression_core.md` R114). -/
def execOr32 (x y : Word) (s : State) : Host.Outcome State Fault Refusal :=
  .next (driveWire (or32 x y) s)

/-- `XOR32` (`spec/40_compression_core.md` R115). -/
def execXor32 (x y : Word) (s : State) : Host.Outcome State Fault Refusal :=
  .next (driveWire (xor32 x y) s)

/-- `F` (`spec/40_compression_core.md` R120). -/
def execFnF (b c d : Word) (s : State) : Host.Outcome State Fault Refusal :=
  .next (driveWire (roundF b c d) s)

/-- `G` (`spec/40_compression_core.md` R121). -/
def execFnG (b c d : Word) (s : State) : Host.Outcome State Fault Refusal :=
  .next (driveWire (roundG b c d) s)

/-- `H` (`spec/40_compression_core.md` R122). -/
def execFnH (b c d : Word) (s : State) : Host.Outcome State Fault Refusal :=
  .next (driveWire (roundH b c d) s)

/-- `I` (`spec/40_compression_core.md` R123). -/
def execFnI (b c d : Word) (s : State) : Host.Outcome State Fault Refusal :=
  .next (driveWire (roundI b c d) s)

end Sys2Proof.Machine
end

