-- ==== Sys2Proof/Machine/Operands.lean ====
section
/-! DEFINITION. The implied operands of a round step and how its control word selects them
(`spec/30_encoding.md` R88, R89, R94, R95), and the length operand of `PAD`. The one immediate, the data
byte of `UPDB` (R93), is read in Decode.lean. -/

namespace Sys2Proof.Machine

/-- `FS = RI[5:4]`, the function select (`spec/30_encoding.md` R88). -/
def functionSelect (i : BitVec 6) : BitVec 2 := (i >>> 4).setWidth 2

/-- `J = RI[3:0]`, the step within the group (`spec/30_encoding.md` R88). -/
def stepInGroup (i : BitVec 6) : BitVec 4 := i.setWidth 4

/-- `Q = RI[1:0]`, the step within a run of four (`spec/30_encoding.md` R88). -/
def stepInRun (i : BitVec 6) : BitVec 2 := i.setWidth 2

/-- The round index of group `fs` and step `j`: `i = 16*FS + J` (`spec/30_encoding.md` R95). -/
def roundIndex (fs : BitVec 2) (j : BitVec 4) : BitVec 6 := fs ++ j

/-- `g = i`, the message index of group 0 (`spec/40_compression_core.md` R124). -/
def indexF (i : BitVec 6) : BitVec 4 := BitVec.ofNat 4 i.toNat

/-- `g = (5*i + 1) mod 16`, the message index of group 1 (`spec/40_compression_core.md` R124). -/
def indexG (i : BitVec 6) : BitVec 4 := BitVec.ofNat 4 (5 * i.toNat + 1)

/-- `g = (3*i + 5) mod 16`, the message index of group 2 (`spec/40_compression_core.md` R124). -/
def indexH (i : BitVec 6) : BitVec 4 := BitVec.ofNat 4 (3 * i.toNat + 5)

/-- `g = (7*i) mod 16`, the message index of group 3 (`spec/40_compression_core.md` R124). -/
def indexI (i : BitVec 6) : BitVec 4 := BitVec.ofNat 4 (7 * i.toNat)

/-- The message index by range of `i` (`spec/40_compression_core.md` R124). -/
def messageIndex (i : BitVec 6) : BitVec 4 :=
  if i.toNat < 16 then indexF i
  else if i.toNat < 32 then indexG i
  else if i.toNat < 48 then indexH i
  else indexI i

/-- The round-function selector by range of `i` (`spec/40_compression_core.md` R125). -/
def selectFunction (i : BitVec 6) : Word → Word → Word → Word :=
  if i.toNat < 16 then roundF
  else if i.toNat < 32 then roundG
  else if i.toNat < 48 then roundH
  else roundI

/-- The schedule word `M[g] = MemRead(4g, 4)` (`spec/20_memory.md` R58). -/
def schedWord (m : Memory) (g : BitVec 4) : Word := BitVec.ofNat 32 (memRead m (4 * g.toNat) 4)

/-- `L = (TOTAL * 8) mod 2^64`, the message length in bits (`spec/42_finalizer.md` R174). -/
def bitLength (total : BitVec 64) : Nat := total.toNat * 8 % 2 ^ 64

end Sys2Proof.Machine
end

