-- ==== Sys2Proof/Machine/Compression.lean ====
section
/-! DEFINITION. The Compression Core (`spec/40_compression_core.md` sections 3 and 4): `SEED`, the round
steps, `FEEDFWD` and `COMPRESS`. -/

namespace Sys2Proof.Machine

/-- `SEED`: `a, b, c, d <- H[0..3]; RI <- 0` (`spec/40_compression_core.md` R135). -/
def seedWork (s : State) : State := { s with work := s.h, ri := 0#6 }

/-- The datapath of one round (`spec/40_compression_core.md` R128): `temp = f + a + K[i] + M[g]`,
`rotated = temp <<< S[i]`, and the four new values, all from the old ones. -/
def roundWords (fn : Word → Word → Word → Word) (m k : Word) (amount : BitVec 5) (q : Quad) : Quad :=
  let temp := add32 (add32 (add32 (fn q.b q.c q.d) q.a) k) m
  let rotated := rotl32 temp amount.toNat
  { a := q.d, b := add32 q.b rotated, c := q.b, d := q.c }

/-- `if i < 63 then RI <- i + 1` (`spec/40_compression_core.md` R128, R136). -/
def nextRoundIndex (i ri : BitVec 6) : BitVec 6 := if i.toNat < 63 then i + 1#6 else ri

/-- A round step with index `i`, round function `fn` and schedule word `M[g]`
(`spec/40_compression_core.md` R128). -/
def roundWith (fn : Word → Word → Word → Word) (g : BitVec 4) (i : BitVec 6) (s : State) : State :=
  { s with
    work := roundWords fn (schedWord s.buf g) (kRom i) (sRom i) s.work
    ri := nextRoundIndex i s.ri }

/-- `ROUND(i)` with `i = RI`, the function and the message word selected by the range of `i`
(`spec/40_compression_core.md` R128). -/
def roundStep (s : State) : State :=
  roundWith (selectFunction s.ri) (messageIndex s.ri) s.ri s

/-- `n` round steps, one after another (`spec/40_compression_core.md` R136). -/
def roundSteps : Nat → State → State
  | 0, s => s
  | n + 1, s => roundSteps n (roundStep s)

/-- `FEEDFWD`: `H[k] <- H[k] + (a, b, c, d)[k]`, all four together (`spec/40_compression_core.md` R137). -/
def feedForward (s : State) : State :=
  { s with
    h := { a := add32 s.h.a s.work.a, b := add32 s.h.b s.work.b,
           c := add32 s.h.c s.work.c, d := add32 s.h.d s.work.d } }

/-- `COMPRESS`: `SEED; ROUND(0); ...; ROUND(63); FEEDFWD` (`spec/40_compression_core.md` R138). Irreducible,
so that no unifier unrolls the 64 rounds. -/
@[irreducible] def compress (s : State) : State := feedForward (roundSteps rounds (seedWork s))

/-- `RND.F` (`spec/40_compression_core.md` R130); the control word given is the index
(notes/assumptions/11.md). -/
def execRndF (j : BitVec 4) (s : State) : Host.Outcome State Fault Refusal :=
  .next (roundWith roundF (indexF (roundIndex 0b00#2 j)) (roundIndex 0b00#2 j) s)

/-- `RND.G` (`spec/40_compression_core.md` R131). -/
def execRndG (j : BitVec 4) (s : State) : Host.Outcome State Fault Refusal :=
  .next (roundWith roundG (indexG (roundIndex 0b01#2 j)) (roundIndex 0b01#2 j) s)

/-- `RND.H` (`spec/40_compression_core.md` R132). -/
def execRndH (j : BitVec 4) (s : State) : Host.Outcome State Fault Refusal :=
  .next (roundWith roundH (indexH (roundIndex 0b10#2 j)) (roundIndex 0b10#2 j) s)

/-- `RND.I` (`spec/40_compression_core.md` R133). -/
def execRndI (j : BitVec 4) (s : State) : Host.Outcome State Fault Refusal :=
  .next (roundWith roundI (indexI (roundIndex 0b11#2 j)) (roundIndex 0b11#2 j) s)

/-- `SEED` (`spec/40_compression_core.md` R135). -/
def execSeed (s : State) : Host.Outcome State Fault Refusal := .next (seedWork s)

/-- `FEEDFWD` (`spec/40_compression_core.md` R137). -/
def execFeedfwd (s : State) : Host.Outcome State Fault Refusal := .next (feedForward s)

/-- `COMPRESS` (`spec/40_compression_core.md` R138). -/
def execCompress (s : State) : Host.Outcome State Fault Refusal := .next (compress s)

end Sys2Proof.Machine
end

