-- ==== Sys2Proof/Machine/Accumulator.lean ====
section
/-! DEFINITION. The Streaming Accumulator (`spec/41_streaming_accumulator.md`): `NEW`, `UPDB` and the
pseudo-instruction `UPDATE`. -/

namespace Sys2Proof.Machine

/-- `TOTAL <- TOTAL + 1; BUF[CUR] <- d` (`spec/41_streaming_accumulator.md` R152, `spec/10_state.md` R31). -/
def storeByte (d : Byte) (s : State) : State :=
  { s with total := s.total + 1#64, buf := memWrite s.buf s.cur.toNat 1 d.toNat }

/-- `CUR <- CUR + 1` (`spec/41_streaming_accumulator.md` R152). -/
def bumpCursor (s : State) : State := { s with cur := s.cur + 1#6 }

/-- `CUR <- 0` (`spec/41_streaming_accumulator.md` R152). -/
def clearCursor (s : State) : State := { s with cur := 0#6 }

/-- `UPDB d` in phase `ACC`, with its block trigger (`spec/41_streaming_accumulator.md` R152, R153). -/
def appendByte (d : Byte) (s : State) : State :=
  if blockFull s then clearCursor (compress (storeByte d s)) else bumpCursor (storeByte d s)

/-- `NEW` (`spec/41_streaming_accumulator.md` R150, R151). -/
def execNew (s : State) : Host.Outcome State Fault Refusal := .next (reinitialise s)

/-- `UPDB d` (`spec/41_streaming_accumulator.md` R152). -/
def execUpdb (d : Byte) (s : State) : Host.Outcome State Fault Refusal :=
  whileAccumulating s (appendByte d)

/-- A run of `UPDB`, refused at its first byte in phase `SPENT`; no byte is no command
(`spec/41_streaming_accumulator.md` R155, R156). -/
def appendBytes : List Byte → State → Host.Outcome State Fault Refusal
  | [], s => .next s
  | d :: ds, s => andThen (whileAccumulating s (appendByte d)) (appendBytes ds)

/-- `UPDATE data` (`spec/41_streaming_accumulator.md` R155). -/
def execUpdate (data : List Byte) (s : State) : Host.Outcome State Fault Refusal :=
  appendBytes data s

end Sys2Proof.Machine
end

