-- ==== Sys2Proof/Machine/Finalizer.lean ====
section
/-! DEFINITION. The Finalizer (`spec/42_finalizer.md`): `PAD`, `SERIALIZE`, `FIN`, `FINR` and the
pseudo-instruction `HASH`. -/

namespace Sys2Proof.Machine

/-- `MemWrite(n, 1, 0x80)` with `n = CUR` (`spec/42_finalizer.md` R172). -/
def putMarker (s : State) : State :=
  { s with buf := memWrite s.buf s.cur.toNat 1 padMarker }

/-- Zero fill of positions `n+1 .. hi` with `n = CUR`; none when `n+1 = hi` (`spec/42_finalizer.md`
R175, R176). -/
def zeroTail (hi : Nat) (s : State) : State :=
  { s with buf := zeroFill s.buf (s.cur.toNat + 1) (hi - (s.cur.toNat + 1)) }

/-- Zero fill of positions `0 .. 56`: the fresh second block, built in `BUF` (`spec/42_finalizer.md` R176).
Irreducible, so that no unifier unrolls the 56 writes. -/
@[irreducible] def zeroHead (s : State) : State :=
  { s with buf := zeroFill s.buf 0 lenFieldPos }

/-- `MemWrite(56, 8, L)` (`spec/42_finalizer.md` R174, `spec/20_memory.md` R59). -/
def putLength (s : State) : State :=
  { s with buf := memWrite s.buf lenFieldPos lenFieldBytes (bitLength s.total) }

/-- `PAD`, the one-block case (`spec/42_finalizer.md` R175). -/
def padOneBlock (s : State) : State := compress (putLength (zeroTail lenFieldPos s))

/-- `PAD`, the two-block case (`spec/42_finalizer.md` R176). -/
def padTwoBlocks (s : State) : State :=
  compress (putLength (zeroHead (compress (zeroTail blockBytes s))))

/-- `PAD`: the marker, then the branch on `CUR <= 55` (`spec/42_finalizer.md` R171, R172). -/
def padMessage (s : State) : State :=
  if fitsOneBlock s then padOneBlock (putMarker s) else padTwoBlocks (putMarker s)

/-- `SERIALIZE`: the sixteen bytes of `DIGEST` and `DVALID`, together (`spec/42_finalizer.md` R178). -/
def serialize (s : State) : State := { markDigestValid s with digest := digestOf s.h }

/-- `PAD; SERIALIZE` (`spec/42_finalizer.md` R180). -/
def finalise (s : State) : State := serialize (padMessage s)

/-- `PAD` (`spec/42_finalizer.md` R172). -/
def execPad (s : State) : Host.Outcome State Fault Refusal := .next (padMessage s)

/-- `SERIALIZE` (`spec/42_finalizer.md` R178). -/
def execSerialize (s : State) : Host.Outcome State Fault Refusal := .next (serialize s)

/-- `FIN`: `PAD; SERIALIZE; PHASE <- SPENT` (`spec/42_finalizer.md` R182). `H`, `TOTAL`, `CUR` and `BUF`,
unspecified afterwards, keep what the steps left (R183, notes/assumptions/7.md). -/
def execFin (s : State) : Host.Outcome State Fault Refusal :=
  whileAccumulating s fun s => markSpent (finalise s)

/-- `FINR`: `PAD; SERIALIZE`, then the writes of `NEW` (`spec/42_finalizer.md` R184). -/
def execFinr (s : State) : Host.Outcome State Fault Refusal :=
  whileAccumulating s fun s => reinitialise (finalise s)

/-- `HASH data`: `NEW; UPDATE data; FIN` (`spec/42_finalizer.md` R186). -/
def execHash (data : List Byte) (s : State) : Host.Outcome State Fault Refusal :=
  andThen (appendBytes data (reinitialise s)) fun s =>
    whileAccumulating s fun s => markSpent (finalise s)

end Sys2Proof.Machine
end

