-- ==== Sys2Proof/Machine/Dispatch.lean ====
section
/-! DEFINITION. One arm per constructor of `Instr`. -/

namespace Sys2Proof.Machine

def exec (i : Instr) (s : State) : Host.Outcome State Fault Refusal :=
  match i with
  -- format CMD
  | .new => Sys2Proof.Machine.execNew s
  | .updb d => Sys2Proof.Machine.execUpdb d s
  | .fin => Sys2Proof.Machine.execFin s
  | .finr => Sys2Proof.Machine.execFinr s
  -- format RND
  | .rndF j => Sys2Proof.Machine.execRndF j s
  | .rndG j => Sys2Proof.Machine.execRndG j s
  | .rndH j => Sys2Proof.Machine.execRndH j s
  | .rndI j => Sys2Proof.Machine.execRndI j s
  -- format SEQ
  | .seed => Sys2Proof.Machine.execSeed s
  | .feedfwd => Sys2Proof.Machine.execFeedfwd s
  | .compress => Sys2Proof.Machine.execCompress s
  | .pad => Sys2Proof.Machine.execPad s
  | .serialize => Sys2Proof.Machine.execSerialize s
  -- format ALU
  | .add32 x y => Sys2Proof.Machine.execAdd32 x y s
  | .rotl32 x n => Sys2Proof.Machine.execRotl32 x n s
  | .not32 x => Sys2Proof.Machine.execNot32 x s
  | .and32 x y => Sys2Proof.Machine.execAnd32 x y s
  | .or32 x y => Sys2Proof.Machine.execOr32 x y s
  | .xor32 x y => Sys2Proof.Machine.execXor32 x y s
  | .fnF b c d => Sys2Proof.Machine.execFnF b c d s
  | .fnG b c d => Sys2Proof.Machine.execFnG b c d s
  | .fnH b c d => Sys2Proof.Machine.execFnH b c d s
  | .fnI b c d => Sys2Proof.Machine.execFnI b c d s
  -- format PSEUDO
  | .update data => Sys2Proof.Machine.execUpdate data s
  | .hash data => Sys2Proof.Machine.execHash data s

end Sys2Proof.Machine
end

