-- ==== Sys2Proof/Machine/Sequencer.lean ====
section
/-! DEFINITION. The command port and the sequencer (`spec/30_encoding.md` R82, `spec/70_reset_and_hazards.md`
R231, R232, R240): what a rising edge of `clk` does, what an accepted command starts, and how a command
word is run as one atomic transition. -/

namespace Sys2Proof.Machine

/-- The micro-operations of one compression: `SEED`, 64 rounds, `FEEDFWD` (`spec/40_compression_core.md` R139).
Irreducible, so that no unifier unrolls it. -/
@[irreducible] def compressPlan : List Micro := .seed :: (List.replicate rounds .round ++ [.feedfwd])

/-- The micro-operations of `PAD` (`spec/42_finalizer.md` R172, R175, R176). -/
def padPlan (s : State) : List Micro :=
  if fitsOneBlock s then [.marker, .zeroToLength, .length] ++ compressPlan
  else [.marker, .zeroToEnd] ++ compressPlan ++ [.zeroHead, .length] ++ compressPlan

/-- The micro-operations of `UPDB d` (`spec/41_streaming_accumulator.md` R152). -/
def appendPlan (d : Byte) (s : State) : List Micro :=
  if blockFull s then [.store d] ++ compressPlan ++ [.clearCursor] else [.store d, .bumpCursor]

/-- The micro-operations the sequencer performs for an instruction (`spec/70_reset_and_hazards.md` R251).
Only the four commands are accepted on the port; an operator takes no micro-operation, and the port sees
a pseudo-instruction as the commands of its expansion. `SERIALIZE` and what follows it in `FIN` and `FINR`
are the one last micro-operation: `DIGEST` and `DVALID` change at the edge at which `BUSY` falls, so that
the host sees the previous digest until `cmd_ready` returns to 1 (`spec/70_reset_and_hazards.md` R242; that
no edge lies between them is the model's reading, notes/assumptions/21.md). -/
def plan (i : Instr) (s : State) : List Micro :=
  match i with
  | .new => [.reinit]
  | .updb d => appendPlan d s
  | .fin => padPlan s ++ [.serializeSpend]
  | .finr => padPlan s ++ [.serializeRenew]
  | .rndF _ => [.round]
  | .rndG _ => [.round]
  | .rndH _ => [.round]
  | .rndI _ => [.round]
  | .seed => [.seed]
  | .feedfwd => [.feedfwd]
  | .compress => compressPlan
  | .pad => padPlan s
  | .serialize => [.serialize]
  | .add32 _ _ => []
  | .rotl32 _ _ => []
  | .not32 _ => []
  | .and32 _ _ => []
  | .or32 _ _ => []
  | .xor32 _ _ => []
  | .fnF _ _ _ => []
  | .fnG _ _ _ => []
  | .fnH _ _ _ => []
  | .fnI _ _ _ => []
  | .update _ => []
  | .hash _ => []

/-- `BUSY <- 1`, and `ms` is what is left to do (`spec/10_state.md` R37). -/
def beginPlan (ms : List Micro) (s : State) : State := { s with busy := true, todo := ms }

/-- What the acceptance of a command does (`spec/30_encoding.md` R82): `NEW` begins in every phase, the
others are refused in phase `SPENT` (`spec/60_exceptions.md` R204). -/
def accept (i : Instr) (s : State) : Host.Outcome State Fault Refusal :=
  if i = .new then .next (beginPlan (plan i s) s) else whileAccumulating s (beginPlan (plan i s))

/-- One micro-operation. Those that are rows of the opcode table run as those rows; a round's control word
is `RI` (`spec/30_encoding.md` R88). -/
def runMicro (m : Micro) (s : State) : Host.Outcome State Fault Refusal :=
  match m with
  | .store d => .next (storeByte d s)
  | .bumpCursor => .next (bumpCursor s)
  | .clearCursor => .next (clearCursor s)
  | .seed => exec .seed s
  | .round => exec (decode (.rnd s.ri)) s
  | .feedfwd => exec .feedfwd s
  | .marker => .next (putMarker s)
  | .zeroToLength => .next (zeroTail lenFieldPos s)
  | .zeroToEnd => .next (zeroTail blockBytes s)
  | .zeroHead => .next (zeroHead s)
  | .length => .next (putLength s)
  | .serialize => exec .serialize s
  | .serializeSpend => andThen (exec .serialize s) fun t => .next (markSpent t)
  | .serializeRenew => andThen (exec .serialize s) (exec .new)
  | .reinit => exec .new s

/-- Completes the micro-operation in progress; `BUSY` falls with the last one (`spec/10_state.md` R37). -/
def advance (s : State) : Host.Outcome State Fault Refusal :=
  match s.todo with
  | [] => .next { s with busy := false }
  | m :: rest => runMicro m { s with todo := rest, busy := !rest.isEmpty }

/-- The host does not present what it holds: it changed `cmd` or dropped `cmd_valid` after an edge with
`cmd_ready = 0` (`spec/30_encoding.md` R82, `spec/93_implementation_defined.md` U12). DESIGN CHOICE
(notes/assumptions/22.md), safe: a word held at the last edge with `cmd_ready = 0` must still stand at the
first edge with `cmd_ready = 1`, where it is accepted; the spec states the duty for `cmd_ready = 0` only and
leaves open whether it covers that edge. So the test does not look at `BUSY`. -/
def holdBroken (valid : Bool) (w : BitVec 10) (s : State) : Bool :=
  match s.offered with
  | none => false
  | some v => !(valid && w == v)

/-- One rising edge of `clk`. `rst` wins (`spec/70_reset_and_hazards.md` R231); while `BUSY` the offered word
is not taken (R240); otherwise an offered command is accepted (`spec/30_encoding.md` R82); with
`cmd_valid = 0` the state is held (R250). -/
def onEdge (e : Edge) (s : State) : Host.Outcome State Fault Refusal :=
  if e.rst then .next (hardReset s)
  else if holdBroken e.valid e.cmd s then .refused .handshake
  else
    let held := { s with offered := if s.busy && e.valid then some e.cmd else none }
    if s.busy then (if e.advance then advance held else .next held)
    else if e.valid then accept (decode (.cmd e.cmd)) held
    else .next held

/-- The host offers `w` until it is accepted: while `BUSY` the command in progress goes on and `w` stays;
then the whole command runs as one transition (`spec/30_encoding.md` R83). `later` is what the host
presents afterwards. -/
def onCommand (w : BitVec 10) (later : List Event) (s : State) : Host.Outcome State Fault Refusal :=
  if holdBroken true w s then .refused .handshake
  else if s.busy then advance { s with offered := some w }
  else exec (decode (.cmd w)) { s with offered := none, inbox := later }

/-- An edge at which the host presents nothing and the micro-operation in progress completes. -/
def idleEdge : Edge := { rst := false, valid := false, cmd := 0#10, advance := true }

/-- The number whose little-endian bytes are given. -/
def littleEndian : List Byte → Nat
  | [] => 0
  | b :: bs => b.toNat + 256 * littleEndian bs

/-- The output `digest`: byte `DIGEST[k]` on bits `[8k+7 : 8k]` (`spec/10_state.md` R40). -/
def digestPort (s : State) : BitVec 128 := BitVec.ofNat 128 (littleEndian s.digest.toList)

/-- Places an encoded word where the next step takes it: a command word at the head of `inbox` of a ready
unit, a round control word in `RI` of a unit whose next micro-operation is a round. -/
def placeCode (c : Code) (s : State) : State :=
  match c with
  | .cmd w => { s with busy := false, todo := [], offered := none, inbox := .command w :: s.inbox }
  | .rnd w =>
    { s with ri := w, busy := true, todo := .round :: s.todo, offered := none,
             inbox := .edge idleEdge :: s.inbox }

/-- `placeCode` of the encoded word a table word stands for; a table word that stands for none changes
nothing. -/
def placeTableWord (nbits w : Nat) (s : State) : State :=
  match codeOfTable nbits w with
  | .ok c => placeCode c s
  | .error _ => s

end Sys2Proof.Machine
end

