-- ==== Sys2Proof/Machine/Step.lean ====
section
/-! DEFINITION. One step of the machine. There is no program counter and no fetch (`spec/10_state.md` R26):
what runs next is what the host presents (`State.inbox`), or the micro-operation in progress. -/

namespace Sys2Proof.Machine

/-- One step: the next event. With no event listed the host presents nothing. -/
def step (s : State) : Host.Outcome State Fault Refusal :=
  match s.inbox with
  | [] => onEdge idleEdge s
  | .edge e :: later => onEdge e { s with inbox := later }
  | .command w :: later => onCommand w later s

/-- `s` with the instruction of a table word where `step` takes its next one
(notes/assumptions/1.md). -/
def State.withFetchWord (s : State) (nbits w : Nat) : State := placeTableWord nbits w s

end Sys2Proof.Machine
end

