-- ==== Sys2Proof/Machine/Reference.lean ====
section
/-! DEFINITION. The unit's function with no unit: `compress` as a pure function of a State and a block
(`spec/40_compression_core.md` R138), and the digest as a function of the message
(`spec/42_finalizer.md` R187). The machine does not use it; statements compare the machine with it. -/

namespace Sys2Proof.Machine

/-- `M[g]` of a block: its bytes `4g .. 4g+4`, little-endian (`spec/40_compression_core.md` R138). -/
def blockWord (block : List Byte) (g : BitVec 4) : Word :=
  BitVec.ofNat 32 (littleEndian ((block.drop (4 * g.toNat)).take 4))

/-- Round `i` on the four working words (`spec/40_compression_core.md` R138). -/
def blockRound (block : List Byte) (q : Quad) (i : BitVec 6) : Quad :=
  roundWords (selectFunction i) (blockWord block (messageIndex i)) (kRom i) (sRom i) q

/-- The round indices `0, 1, ..., 63` in order (`spec/40_compression_core.md` R136). -/
def roundIndices : List (BitVec 6) := (List.range rounds).map (BitVec.ofNat 6)

/-- `compress(h, block)` (`spec/40_compression_core.md` R138). -/
def compressBlock (h : Quad) (block : List Byte) : Quad :=
  let q := roundIndices.foldl (blockRound block) h
  { a := add32 h.a q.a, b := add32 h.b q.b, c := add32 h.c q.c, d := add32 h.d q.d }

/-- The padded message: `msg`, `0x80`, `(55 - n) mod 64` zero bytes with `n = len mod 64`, and `8 * len` as
eight little-endian bytes (`spec/42_finalizer.md` R187). -/
def paddedMessage (msg : List Byte) : List Byte :=
  msg ++ [0x80#8] ++ List.replicate ((119 - msg.length % 64) % 64) 0x00#8
    ++ bytesOfNat 8 (8 * msg.length)

/-- `h(k+1) = compress(h(k), B[k])` over the first `k` blocks of a byte string (`spec/42_finalizer.md` R187). -/
def chainBlocks : Nat → Quad → List Byte → Quad
  | 0, h, _ => h
  | k + 1, h, bs => chainBlocks k (compressBlock h (bs.take blockBytes)) (bs.drop blockBytes)

/-- The digest of a message (`spec/42_finalizer.md` R187). -/
def messageDigest (msg : List Byte) : Vector Byte 16 :=
  digestOf (chainBlocks ((paddedMessage msg).length / blockBytes) iv (paddedMessage msg))

end Sys2Proof.Machine
end

