-- ==== Sys2Proof/Safety.lean ====
section
/-! DEFINITION. The terms claims are stated in: what the host observes, a Fresh and a ready unit, the
invariant of the state, states that differ only where the spec leaves values open, and the command
streams that have a meaning. -/

namespace Sys2Proof.Safety

open Sys2Proof.Machine

/-- The outputs as the host may read them (`spec/30_encoding.md` R81, `spec/60_exceptions.md` R219). -/
structure Outputs where
  /-- `cmd_ready`. -/
  ready : Bool
  /-- `digest_valid`. -/
  digestValid : Bool
  /-- `digest`, meaningful only while `digest_valid = 1` and `cmd_ready = 1`. -/
  digest : Option (BitVec 128)
  deriving DecidableEq, Repr

/-- What the host observes (`spec/30_encoding.md` R81, `spec/60_exceptions.md` R219,
`spec/70_reset_and_hazards.md` R242). -/
def observe (s : State) : Outputs where
  ready := ready s
  digestValid := s.dvalid
  digest := if s.dvalid && ready s then some (digestPort s) else none

/-- A unit at a command boundary, with the host holding no word (`spec/10_state.md` R37). -/
def AtBoundary (s : State) : Prop := s.busy = false ∧ s.todo = [] ∧ s.offered = none

/-- A Fresh unit (`spec/10_state.md` R34). -/
def Fresh (s : State) : Prop := s.phase = .acc ∧ s.cur = 0#6 ∧ s.total = 0#64 ∧ s.h = iv

/-- The 64 bytes of `BUF`, the lowest address first. -/
def block (s : State) : List Byte := (List.range blockBytes).map s.buf.read

/-- Runs micro-operations to their end. -/
def finish : List Micro → State → Host.Outcome State Fault Refusal
  | [], s => .next s
  | m :: ms, s => andThen (runMicro m s) (finish ms)

/-- In phase `ACC` the cursor is the counter's low six bits (`spec/10_state.md` R32). -/
def CursorAgrees (s : State) : Prop := s.phase = .acc → s.cur = s.total.setWidth 6

/-- The invariant of the state: the buffer is in canonical form, `BUSY` says that a command is in
progress, and once the command in progress is finished the cursor agrees with the counter
(`spec/10_state.md` R32, R37). -/
def Inv (s : State) : Prop :=
  s.buf.wf = true ∧ (s.busy = true ↔ s.todo ≠ []) ∧ ∃ t, finish s.todo s = .next t ∧ CursorAgrees t

/-- The states differ only where the spec leaves a value open: `a, b, c, d`, `RI`
(`spec/93_implementation_defined.md` U5), `BUF` at and beyond `CUR` (U3), `DIGEST` while `DVALID = 0` (U4),
and `H`, `TOTAL`, `CUR`, `BUF` in phase `SPENT` (U2). -/
def SameButOpen (s t : State) : Prop :=
  s.phase = t.phase ∧ s.dvalid = t.dvalid ∧ (s.dvalid = true → s.digest = t.digest) ∧
  (s.phase = .acc → s.h = t.h ∧ s.total = t.total ∧ s.cur = t.cur ∧
    ∀ n, n < s.cur.toNat → s.buf.read n = t.buf.read n)

/-- Every `FIN` is the last command or is followed by `NEW` at once: the discipline of
`spec/60_exceptions.md` R205. -/
def finThenNew : List Instr → Prop
  | [] => True
  | [_] => True
  | i :: j :: rest => (i = .fin → j = .new) ∧ finThenNew (j :: rest)

/-- The instructions an instruction's words stand for: itself where it has one word, its expansion where
it is a pseudo-instruction (`spec/30_encoding.md` R100), none where it has no encoding (R91). -/
def expansion : Instr → List Instr
  | .new => [.new]
  | .updb d => [.updb d]
  | .fin => [.fin]
  | .finr => [.finr]
  | .rndF j => [.rndF j]
  | .rndG j => [.rndG j]
  | .rndH j => [.rndH j]
  | .rndI j => [.rndI j]
  | .seed => []
  | .feedfwd => []
  | .compress => []
  | .pad => []
  | .serialize => []
  | .add32 _ _ => []
  | .rotl32 _ _ => []
  | .not32 _ => []
  | .and32 _ _ => []
  | .or32 _ _ => []
  | .xor32 _ _ => []
  | .fnF _ _ _ => []
  | .fnG _ _ _ => []
  | .fnH _ _ _ => []
  | .fnI _ _ _ => []
  | .update data => data.map .updb
  | .hash data => .new :: data.map .updb ++ [.fin]

/-- Runs instructions one after another. -/
def execAll : List Instr → State → Host.Outcome State Fault Refusal
  | [], s => .next s
  | i :: is, s => andThen (exec i s) (execAll is)

/-- `n` steps, stopping at the first refusal. -/
def runSteps : Nat → State → Host.Outcome State Fault Refusal
  | 0, s => .next s
  | n + 1, s => andThen (step s) (runSteps n)

/-- The unit about to be given a stream of command words. -/
def withCommands (ws : List (BitVec 10)) (s : State) : State := { s with inbox := ws.map .command }

end Sys2Proof.Safety
end

