-- ==== Sys2Proof/Certificates/Slice0/Obligations.lean ====
section
/-! DEFINITION. The statements for the provers. Rules are those of `spec/`; log entries are
notes/assumptions/<n>.md. -/

open Sys2Proof Sys2Proof.Machine Sys2Proof.Safety

/-! Encoding -/

/-- Decoding the words of an instruction gives the instruction, or the instructions of its expansion, from
the words and from their byte containers. (The containers are the model's choice: log 2.) -/
def Obligations.DecodeOfEncodeIsTheInstruction : Prop :=
  ∀ i : Instr, i.wellFormed = true →
    (encode i).map decode = expansion i ∧
    (encode i).map (fun c => (decodeBytes c.bytes).toOption) = (expansion i).map some

/-- R86, R96: the two `op` bits select the command, and the data bits matter to `UPDB` only. -/
def Obligations.CommandWordsDecodeByTheirOpBits : Prop :=
  ∀ (op : BitVec 2) (data : BitVec 8),
    decode (.cmd (op ++ data)) =
      (if op = 0b00#2 then .new else if op = 0b01#2 then .updb data
       else if op = 0b10#2 then .fin else .finr)

/-- R90: the four round micro-operations, 16 indices each. -/
def Obligations.RoundWordsDecodeByTheirSelectBits : Prop :=
  ∀ j : BitVec 4,
    decode (.rnd (0b00#2 ++ j)) = .rndF j ∧ decode (.rnd (0b01#2 ++ j)) = .rndG j ∧
    decode (.rnd (0b10#2 ++ j)) = .rndH j ∧ decode (.rnd (0b11#2 ++ j)) = .rndI j

/-- R102 words written out, and two round words of section 4 of the test vectors. -/
def Obligations.WrittenOutWordsDecode : Prop :=
  encode .new = [.cmd 0x000#10] ∧ encode (.updb 0x00#8) = [.cmd 0x100#10] ∧
  encode (.updb 0x61#8) = [.cmd 0x161#10] ∧ encode (.updb 0xff#8) = [.cmd 0x1ff#10] ∧
  encode .fin = [.cmd 0x200#10] ∧ encode .finr = [.cmd 0x300#10] ∧
  (∀ d : Byte, encode (.updb d) = [.cmd (0x100#10 + d.setWidth 10)]) ∧
  decode (.cmd 0x000#10) = .new ∧ decode (.cmd 0x161#10) = .updb 0x61#8 ∧
  decode (.cmd 0x200#10) = .fin ∧ decode (.cmd 0x300#10) = .finr ∧
  decode (.rnd 0x0f#6) = .rndF 15#4 ∧ decode (.rnd 0x20#6) = .rndH 0#4

/-! Operators -/

/-- R110, R117: addition modulo `2^32`; the order of additions does not matter. -/
def Obligations.AdditionIsModulo32Bits : Prop :=
  ∀ x y z : Word, (add32 x y).toNat = (x.toNat + y.toNat) % 2 ^ 32 ∧
    add32 x y = add32 y x ∧ add32 (add32 x y) z = add32 x (add32 y z)

/-- R111: rotation by 1 to 31, as the formula and as the move of every bit. -/
def Obligations.RotationMovesEveryBit : Prop :=
  ∀ (x : Word) (s : Nat), 1 ≤ s → s ≤ 31 →
    (rotl32 x s).toNat = (x.toNat * 2 ^ s % 2 ^ 32) ||| (x.toNat / 2 ^ (32 - s)) ∧
    ∀ k, k < 32 → (rotl32 x s).getLsbD ((k + s) % 32) = x.getLsbD k

/-- R112 to R115: the bitwise operators, bit by bit. -/
def Obligations.BitwiseOperatorsActPerBit : Prop :=
  ∀ (x y : Word) (k : Nat), k < 32 →
    (not32 x).getLsbD k = (!x.getLsbD k) ∧
    (and32 x y).getLsbD k = (x.getLsbD k && y.getLsbD k) ∧
    (or32 x y).getLsbD k = (x.getLsbD k || y.getLsbD k) ∧
    (xor32 x y).getLsbD k = (x.getLsbD k != y.getLsbD k)

/-- R120 to R123, R125: the round functions bit by bit, and which indices select each. -/
def Obligations.RoundFunctionsFollowTheirTruthTables : Prop :=
  (∀ j : BitVec 4, selectFunction (0b00#2 ++ j) = roundF ∧ selectFunction (0b01#2 ++ j) = roundG ∧
    selectFunction (0b10#2 ++ j) = roundH ∧ selectFunction (0b11#2 ++ j) = roundI) ∧
  ∀ (b c d : Word) (k : Nat), k < 32 →
    (roundF b c d).getLsbD k = (if b.getLsbD k then c.getLsbD k else d.getLsbD k) ∧
    (roundG b c d).getLsbD k = (if d.getLsbD k then b.getLsbD k else c.getLsbD k) ∧
    (roundH b c d).getLsbD k = ((b.getLsbD k != c.getLsbD k) != d.getLsbD k) ∧
    (roundI b c d).getLsbD k = (c.getLsbD k != (b.getLsbD k || !d.getLsbD k))

/-- Each operator row completes with its value on `wire` and nothing else changed. That the value appears
there is the model's choice (log 10). For `ROTL32` R111 gives a value for amounts 1 to 31; the value for 0 and
above 31, the rotation by the amount modulo 32, is the model's reading (log 13). -/
def Obligations.OperatorRowsDriveTheirValue : Prop :=
  ∀ (s : State) (x y b c d : Word) (n : Nat),
    exec (.add32 x y) s = .next { s with wire := x + y } ∧
    exec (.rotl32 x n) s = .next { s with wire := x.rotateLeft n } ∧
    exec (.not32 x) s = .next { s with wire := ~~~x } ∧
    exec (.and32 x y) s = .next { s with wire := x &&& y } ∧
    exec (.or32 x y) s = .next { s with wire := x ||| y } ∧
    exec (.xor32 x y) s = .next { s with wire := x ^^^ y } ∧
    exec (.fnF b c d) s = .next { s with wire := (b &&& c) ||| (~~~b &&& d) } ∧
    exec (.fnG b c d) s = .next { s with wire := (d &&& b) ||| (~~~d &&& c) } ∧
    exec (.fnH b c d) s = .next { s with wire := b ^^^ c ^^^ d } ∧
    exec (.fnI b c d) s = .next { s with wire := c ^^^ (b ||| ~~~d) }

/-! Tables and operands -/

/-- R54, R55, R56: the two constant ROMs. `K[i]` is the entry of R54's table, whose row `j` lists `K[j]`,
`K[16 + j]`, `K[32 + j]`, `K[48 + j]`; the shift table repeats four amounts in each group. -/
def Obligations.ConstantTablesHoldThePrintedValues : Prop :=
  ∀ (fs : BitVec 2) (j : BitVec 4),
    (kRom (fs ++ j)).toNat =
      ((([[0xd76aa478, 0xf61e2562, 0xfffa3942, 0xf4292244],
      [0xe8c7b756, 0xc040b340, 0x8771f681, 0x432aff97],
      [0x242070db, 0x265e5a51, 0x6d9d6122, 0xab9423a7],
      [0xc1bdceee, 0xe9b6c7aa, 0xfde5380c, 0xfc93a039]] ++
     [[0xf57c0faf, 0xd62f105d, 0xa4beea44, 0x655b59c3],
      [0x4787c62a, 0x02441453, 0x4bdecfa9, 0x8f0ccc92],
      [0xa8304613, 0xd8a1e681, 0xf6bb4b60, 0xffeff47d],
      [0xfd469501, 0xe7d3fbc8, 0xbebfbc70, 0x85845dd1]] ++
     [[0x698098d8, 0x21e1cde6, 0x289b7ec6, 0x6fa87e4f],
      [0x8b44f7af, 0xc33707d6, 0xeaa127fa, 0xfe2ce6e0],
      [0xffff5bb1, 0xf4d50d87, 0xd4ef3085, 0xa3014314],
      [0x895cd7be, 0x455a14ed, 0x04881d05, 0x4e0811a1]] ++
     [[0x6b901122, 0xa9e3e905, 0xd9d4d039, 0xf7537e82],
      [0xfd987193, 0xfcefa3f8, 0xe6db99e5, 0xbd3af235],
      [0xa679438e, 0x676f02d9, 0x1fa27cf8, 0x2ad7d2bb],
      [0x49b40821, 0x8d2a4c8a, 0xc4ac5665, 0xeb86d391]]) : List (List Nat)).getD j.toNat []).getD fs.toNat 0 ∧
    (sRom (fs ++ j)).toNat =
      (([[7, 12, 17, 22], [5, 9, 14, 20], [4, 11, 16, 23], [6, 10, 15, 21]] : List (List Nat)).getD fs.toNat []).getD
        (j.toNat % 4) 0

/-- R124: the message index by range, and each group uses every message word exactly once. -/
def Obligations.MessageIndexFollowsItsFormulas : Prop :=
  (∀ i : BitVec 6, (messageIndex i).toNat =
    if i.toNat < 16 then i.toNat
    else if i.toNat < 32 then (5 * i.toNat + 1) % 16
    else if i.toNat < 48 then (3 * i.toNat + 5) % 16
    else 7 * i.toNat % 16) ∧
  ∀ (fs : BitVec 2) (g : BitVec 4),
    ∃ j : BitVec 4, messageIndex (fs ++ j) = g ∧ ∀ j' : BitVec 4, messageIndex (fs ++ j') = g → j' = j

/-- R15: `MemRead` is the little-endian sum of its bytes; `MemWrite` puts byte `k` of the value at `addr + k` and leaves every other byte alone, `MemRead` reads
it back, and the buffer stays in canonical form. -/
def Obligations.BufferWriteIsReadBack : Prop :=
  ∀ (m : Memory) (addr n v : Nat), m.wf = true → addr + n ≤ 64 →
    (∀ k, k < n → (memWrite m addr n v).read (addr + k) = BitVec.ofNat 8 (v / 2 ^ (8 * k))) ∧
    (∀ a, a < addr ∨ addr + n ≤ a → (memWrite m addr n v).read a = m.read a) ∧
    memRead m addr n = ((List.range n).map fun k => 2 ^ (8 * k) * (m.read (addr + k)).toNat).sum ∧
    memRead (memWrite m addr n v) addr n = v % 2 ^ (8 * n) ∧
    (memWrite m addr n v).wf = true

/-- R58: the schedule word is the little-endian value of four bytes of `BUF`. -/
def Obligations.ScheduleWordIsLittleEndian : Prop :=
  ∀ (m : Memory) (g : BitVec 4),
    (schedWord m g).toNat =
      (m.read (4 * g.toNat)).toNat + 2 ^ 8 * (m.read (4 * g.toNat + 1)).toNat
        + 2 ^ 16 * (m.read (4 * g.toNat + 2)).toNat + 2 ^ 24 * (m.read (4 * g.toNat + 3)).toNat

/-! The Compression Core -/

/-- R128: the round step whose index is `RI`. -/
def Obligations.RoundStepComputesTheNewWords : Prop :=
  ∀ s : State,
    let i := s.ri.toNat
    let q := s.work
    let f := if i < 16 then (q.b &&& q.c) ||| (~~~q.b &&& q.d)
             else if i < 32 then (q.d &&& q.b) ||| (~~~q.d &&& q.c)
             else if i < 48 then q.b ^^^ q.c ^^^ q.d
             else q.c ^^^ (q.b ||| ~~~q.d)
    let g := if i < 16 then i else if i < 32 then (5 * i + 1) % 16
             else if i < 48 then (3 * i + 5) % 16 else 7 * i % 16
    let temp := f + q.a + kRom s.ri + BitVec.ofNat 32 (memRead s.buf (4 * g) 4)
    exec (decode (.rnd s.ri)) s =
      .next { s with
        work := ⟨q.d, q.b + temp.rotateLeft (sRom s.ri).toNat, q.b, q.c⟩
        ri := if i < 63 then s.ri + 1#6 else s.ri }

/-- A round row given a control word that is not `RI` uses the word it is given, for the index and for the
index it leaves. The model's choice (log 11): inside the unit the word always is `RI`. -/
def Obligations.RoundRowUsesTheWordItIsGiven : Prop :=
  ∀ (s : State) (w : BitVec 6), ∃ t u,
    exec (decode (.rnd w)) s = .next t ∧ exec (decode (.rnd w)) { s with ri := w } = .next u ∧
    t = { u with ri := if w = 63#6 then s.ri else w + 1#6 }

/-- R130: `RND.F`. -/
def Obligations.RndFStepUsesFAndWordI : Prop :=
  ∀ (s : State) (j : BitVec 4), s.ri = 0b00#2 ++ j →
    let q := s.work
    let temp := ((q.b &&& q.c) ||| (~~~q.b &&& q.d)) + q.a + kRom s.ri
      + BitVec.ofNat 32 (memRead s.buf (4 * j.toNat) 4)
    exec (.rndF j) s =
      .next { s with
        work := ⟨q.d, q.b + temp.rotateLeft ([7, 12, 17, 22].getD (j.toNat % 4) 0), q.b, q.c⟩
        ri := s.ri + 1#6 }

/-- R131: `RND.G`. -/
def Obligations.RndGStepUsesGAndItsWord : Prop :=
  ∀ (s : State) (j : BitVec 4), s.ri = 0b01#2 ++ j →
    let q := s.work
    let temp := ((q.d &&& q.b) ||| (~~~q.d &&& q.c)) + q.a + kRom s.ri
      + BitVec.ofNat 32 (memRead s.buf (4 * ((5 * (16 + j.toNat) + 1) % 16)) 4)
    exec (.rndG j) s =
      .next { s with
        work := ⟨q.d, q.b + temp.rotateLeft ([5, 9, 14, 20].getD (j.toNat % 4) 0), q.b, q.c⟩
        ri := s.ri + 1#6 }

/-- R132: `RND.H`. -/
def Obligations.RndHStepUsesHAndItsWord : Prop :=
  ∀ (s : State) (j : BitVec 4), s.ri = 0b10#2 ++ j →
    let q := s.work
    let temp := (q.b ^^^ q.c ^^^ q.d) + q.a + kRom s.ri
      + BitVec.ofNat 32 (memRead s.buf (4 * ((3 * (32 + j.toNat) + 5) % 16)) 4)
    exec (.rndH j) s =
      .next { s with
        work := ⟨q.d, q.b + temp.rotateLeft ([4, 11, 16, 23].getD (j.toNat % 4) 0), q.b, q.c⟩
        ri := s.ri + 1#6 }

/-- R133: `RND.I`; the round with index 63 does not increment `RI`. -/
def Obligations.RndIStepUsesIAndItsWord : Prop :=
  ∀ (s : State) (j : BitVec 4), s.ri = 0b11#2 ++ j →
    let q := s.work
    let temp := (q.c ^^^ (q.b ||| ~~~q.d)) + q.a + kRom s.ri
      + BitVec.ofNat 32 (memRead s.buf (4 * (7 * (48 + j.toNat) % 16)) 4)
    exec (.rndI j) s =
      .next { s with
        work := ⟨q.d, q.b + temp.rotateLeft ([6, 10, 15, 21].getD (j.toNat % 4) 0), q.b, q.c⟩
        ri := if j = 15#4 then 63#6 else s.ri + 1#6 }

/-- R135: `SEED`. -/
def Obligations.SeedLoadsTheWorkingRegisters : Prop :=
  ∀ s : State, exec .seed s = .next { s with work := ⟨s.h.a, s.h.b, s.h.c, s.h.d⟩, ri := 0#6 }

/-- R137: `FEEDFWD`. -/
def Obligations.FeedForwardAddsAndCommits : Prop :=
  ∀ s : State, exec .feedfwd s =
    .next { s with h := ⟨s.h.a + s.work.a, s.h.b + s.work.b, s.h.c + s.work.c, s.h.d + s.work.d⟩ }

/-- R136, R138: `COMPRESS` is `SEED`, then the 64 round words in order, then `FEEDFWD`, each run as its own
row. -/
def Obligations.CompressRunsItsSteps : Prop :=
  ∀ s : State,
    exec .compress s =
      execAll (.seed :: (List.range 64).map (fun i => decode (.rnd (BitVec.ofNat 6 i))) ++ [.feedfwd]) s

/-- R139: `COMPRESS` is a function of `H` and the 64 bytes of `BUF`; it completes in every state; it changes
nothing but `H` and its scratch registers. -/
def Obligations.CompressIsAPureFunction : Prop :=
  ∀ s : State, ∃ t, exec .compress s = .next t ∧
    t.h = compressBlock s.h (block s) ∧
    t = { s with h := t.h, work := t.work, ri := t.ri } ∧
    ∀ a, t.buf.read a = s.buf.read a

/-! The Streaming Accumulator -/

/-- R150: `NEW`. That `a, b, c, d` and `RI`, which R22 and R44 call unspecified afterwards, keep their values is
the model's reading (log 8). -/
def Obligations.NewMakesAFreshAccumulator : Prop :=
  ∀ s : State, exec .new s =
    .next { s with
      h := ⟨0x67452301#32, 0xefcdab89#32, 0x98badcfe#32, 0x10325476#32⟩
      total := 0#64, cur := 0#6, phase := .acc }

/-- R152: `UPDB d`. With `CUR` below 63, that `a, b, c, d` and `RI`, which R22 and R27 leave unspecified after any
command, keep their values is the model's reading (log 8); the refusal in phase `SPENT` is R204's (log 14). -/
def Obligations.UpdbAppendsOneByte : Prop :=
  ∀ (d : Byte) (s : State), s.buf.wf = true →
    (s.phase = .spent → exec (.updb d) s = .refused .consumed) ∧
    (s.phase = .acc → ∃ t, exec (.updb d) s = .next t ∧
      t.total = s.total + 1#64 ∧
      t.buf.read s.cur.toNat = d ∧
      (∀ a, a ≠ s.cur.toNat → t.buf.read a = s.buf.read a) ∧
      (s.cur ≠ 63#6 → t = { s with total := t.total, cur := s.cur + 1#6, buf := t.buf }) ∧
      (s.cur = 63#6 → t.h = compressBlock s.h ((block s).take 63 ++ [d]) ∧
        t = { s with h := t.h, work := t.work, ri := t.ri, total := t.total, cur := 0#6, buf := t.buf }))

/-- R155: `UPDATE` is its sequence of `UPDB`, and its effect on the state in closed form. -/
def Obligations.UpdateInClosedForm : Prop :=
  ∀ (data : List Byte) (s : State), s.buf.wf = true → s.phase = .acc →
    let bytes := (block s).take s.cur.toNat ++ data
    ∃ t, exec (.update data) s = .next t ∧
      t.total = s.total + BitVec.ofNat 64 data.length ∧
      t.cur.toNat = (s.cur.toNat + data.length) % 64 ∧
      t.h = chainBlocks ((s.cur.toNat + data.length) / 64) s.h bytes ∧
      (block t).take t.cur.toNat = bytes.drop (64 * ((s.cur.toNat + data.length) / 64)) ∧
      (∀ a, (∀ k, k < data.length → a ≠ (s.cur.toNat + k) % 64) → t.buf.read a = s.buf.read a) ∧
      t = { s with h := t.h, work := t.work, ri := t.ri, total := t.total, cur := t.cur, buf := t.buf } ∧
      exec (.update data) s = execAll (data.map .updb) s

/-- R156: the empty update is no command at all, in both phases. R155 with R204: a non-empty one is refused in
phase `SPENT`, as its first `UPDB` is (log 14). -/
def Obligations.UpdateAtItsEdges : Prop :=
  ∀ (d : Byte) (data : List Byte) (s : State),
    exec (.update []) s = .next s ∧
    (s.phase = .spent → exec (.update (d :: data)) s = .refused .consumed)

/-- R157: how the bytes are split over `update` calls does not matter, and one update is a run of `UPDB`. -/
def Obligations.ChunkBoundariesDoNotMatter : Prop :=
  ∀ (chunks : List (List Byte)) (s : State),
    execAll (chunks.map .update) s = exec (.update chunks.flatten) s ∧
    execAll (chunks.flatten.map .updb) s = exec (.update chunks.flatten) s

/-! The Finalizer -/

/-- R175: `PAD`, the one-block case. -/
def Obligations.PadOneBlockCompressesTheTail : Prop :=
  ∀ s : State, s.buf.wf = true → s.cur.toNat ≤ 55 →
    ∃ t, exec .pad s = .next t ∧
      block t = (block s).take s.cur.toNat ++ [0x80#8] ++ List.replicate (55 - s.cur.toNat) 0x00#8
        ++ bytesOfNat 8 (s.total.toNat * 8 % 2 ^ 64) ∧
      t.h = compressBlock s.h (block t) ∧
      t = { s with h := t.h, work := t.work, ri := t.ri, buf := t.buf }

/-- R176: `PAD`, the two-block case. -/
def Obligations.PadTwoBlocksCompressesTwice : Prop :=
  ∀ s : State, s.buf.wf = true → 56 ≤ s.cur.toNat →
    ∃ t, exec .pad s = .next t ∧
      block t = List.replicate 56 0x00#8 ++ bytesOfNat 8 (s.total.toNat * 8 % 2 ^ 64) ∧
      t.h = compressBlock
        (compressBlock s.h
          ((block s).take s.cur.toNat ++ [0x80#8] ++ List.replicate (63 - s.cur.toNat) 0x00#8))
        (block t) ∧
      t = { s with h := t.h, work := t.work, ri := t.ri, buf := t.buf }

/-- R174, R59: after `PAD` the length field is the low 64 bits of the bit length, little-endian, and the last
two schedule words are its halves. -/
def Obligations.LengthFieldIsTheBitLength : Prop :=
  ∀ s : State, s.buf.wf = true →
    ∃ t, exec .pad s = .next t ∧
      (∀ k, k < 8 → t.buf.read (56 + k) = BitVec.ofNat 8 (s.total.toNat * 8 % 2 ^ 64 / 2 ^ (8 * k))) ∧
      schedWord t.buf 14#4 = (s.total <<< 3).extractLsb' 0 32 ∧
      schedWord t.buf 15#4 = (s.total <<< 3).extractLsb' 32 32

/-- R178: `SERIALIZE`. That `a, b, c, d` and `RI`, unspecified outside a compression (R22, R27), keep their values
is the model's reading (log 8). -/
def Obligations.SerializeWritesTheDigest : Prop :=
  ∀ s : State, ∃ t, exec .serialize s = .next t ∧
    (∀ w k : Fin 4, t.digest[4 * w.val + k.val]'(by omega) =
      BitVec.ofNat 8 ((#v[s.h.a, s.h.b, s.h.c, s.h.d][w]).toNat / 2 ^ (8 * k.val))) ∧
    t = { s with digest := t.digest, dvalid := true }

/-- R40: the words on the output `digest`. -/
def Obligations.DigestPortShowsTheStateWords : Prop :=
  ∀ s : State, ∃ t, exec .serialize s = .next t ∧
    digestPort t = s.h.d ++ s.h.c ++ s.h.b ++ s.h.a ∧
    ∀ k : Fin 16, (digestPort t).extractLsb' (8 * k.val) 8 = t.digest[k.val]

/-- R182: `FIN`. The values the spec leaves open after it are not claimed. -/
def Obligations.FinPadsSerializesAndSpends : Prop :=
  ∀ s : State,
    (s.phase = .spent → exec .fin s = .refused .consumed) ∧
    (s.phase = .acc → ∃ p q t, exec .pad s = .next p ∧ exec .serialize p = .next q ∧
      exec .fin s = .next t ∧
      t.digest = q.digest ∧ t.dvalid = true ∧ t.phase = .spent ∧
      t.busy = s.busy ∧ t.todo = s.todo ∧ t.offered = s.offered ∧ t.inbox = s.inbox ∧ t.wire = s.wire)

/-- R184: `FINR`. -/
def Obligations.FinrPadsSerializesAndReinitialises : Prop :=
  ∀ s : State,
    (s.phase = .spent → exec .finr s = .refused .consumed) ∧
    (s.phase = .acc → ∃ p q t, exec .pad s = .next p ∧ exec .serialize p = .next q ∧
      exec .finr s = .next t ∧
      t.digest = q.digest ∧ t.dvalid = true ∧
      t.h = ⟨0x67452301#32, 0xefcdab89#32, 0x98badcfe#32, 0x10325476#32⟩ ∧
      t.total = 0#64 ∧ t.cur = 0#6 ∧ t.phase = .acc ∧
      t.busy = s.busy ∧ t.todo = s.todo ∧ t.offered = s.offered ∧ t.inbox = s.inbox ∧ t.wire = s.wire)

/-- R185 (a): `FINR` does what `FIN; NEW` does. -/
def Obligations.FinrIsFinThenNew : Prop :=
  ∀ s : State, s.phase = .acc → ∃ t u, exec .finr s = .next t ∧ execAll [.fin, .new] s = .next u ∧
    t.digest = u.digest ∧ t.dvalid = u.dvalid ∧ t.h = u.h ∧ t.total = u.total ∧ t.cur = u.cur ∧
    t.phase = u.phase

/-- R186: `HASH` is `NEW; UPDATE; FIN`; it completes from every state, and leaves the unit in phase `SPENT` with
the digest that its `FIN` produced. -/
def Obligations.HashIsNewUpdateFin : Prop :=
  ∀ (data : List Byte) (s : State),
    exec (.hash data) s = execAll [.new, .update data, .fin] s ∧
    ∃ u t, execAll [.new, .update data, .pad] s = .next u ∧ exec (.hash data) s = .next t ∧
      t.phase = .spent ∧ t.dvalid = true ∧ t.digest = digestOf u.h

/-- R187: the digest as a function of the message. -/
def Obligations.HashComputesTheMessageDigest : Prop :=
  ∀ (msg : List Byte) (s : State), s.buf.wf = true → msg.length < 2 ^ 61 →
    ∃ t, exec (.hash msg) s = .next t ∧
      t.digest = messageDigest msg ∧ t.dvalid = true ∧ t.phase = .spent

/-- The command stream of a message, run by the machine one command a step from any command boundary, ends
with the message's digest on the output. The program as a list of events is the model's form of R83's sequence
of accepted words (log 1), and one command a step is R83's atomic transition (log 3). -/
def Obligations.CommandStreamComputesTheMessageDigest : Prop :=
  ∀ (msg : List Byte) (s : State), s.buf.wf = true → AtBoundary s → msg.length < 2 ^ 61 →
    ∃ t, runSteps (msg.length + 2)
        (withCommands (0x000#10 :: msg.map (fun d => 0x100#10 + d.setWidth 10) ++ [0x200#10]) s) = .next t ∧
      t.inbox = [] ∧ t.phase = .spent ∧
      observe t = { ready := true, digestValid := true,
                    digest := some (BitVec.ofNat 128 (littleEndian (messageDigest msg).toList)) }

/-- `FINR` and then the same message again gives the digest a fresh accumulator gives. -/
def Obligations.FinrThenTheSameInputGivesTheSameDigest : Prop :=
  ∀ (msg : List Byte) (s : State), s.buf.wf = true → s.phase = .acc → msg.length < 2 ^ 61 →
    ∃ t u, execAll [.finr, .update msg, .finr] s = .next t ∧ execAll [.new, .update msg, .finr] s = .next u ∧
      t.digest = messageDigest msg ∧ u.digest = messageDigest msg

/-! Phases, refusal, and what each instruction leaves alone -/

/-- R204: `UPDB`, `FIN` and `FINR` are refused in phase `SPENT` and run in phase `ACC`; `NEW` is never refused. -/
def Obligations.SpentUnitAcceptsOnlyNew : Prop :=
  ∀ s : State,
    (s.phase = .spent → (∀ d, exec (.updb d) s = .refused .consumed) ∧ exec .fin s = .refused .consumed ∧
      exec .finr s = .refused .consumed) ∧
    (s.phase = .acc → (∀ d, ∃ t, exec (.updb d) s = .next t) ∧ (∃ t, exec .fin s = .next t) ∧
      ∃ t, exec .finr s = .next t) ∧
    ∃ t, exec .new s = .next t ∧ t.phase = .acc

/-- R200, R159: every instruction completes, but for the commands that need a live accumulator and do not have
one. -/
def Obligations.EveryInstructionCompletes : Prop :=
  ∀ (i : Instr) (s : State),
    (s.phase = .acc ∨ (i ≠ .fin ∧ i ≠ .finr ∧ (∀ d, i ≠ .updb d) ∧ ∀ d data, i ≠ .update (d :: data))) →
    ∃ t, exec i s = .next t

/-- R36, R39: `DIGEST` and `DVALID` change only by `SERIALIZE`, inside `FIN`, `FINR` and `HASH`. -/
def Obligations.OnlySerializeWritesTheDigest : Prop :=
  ∀ (i : Instr) (s t : State), exec i s = .next t →
    i ≠ .serialize → i ≠ .fin → i ≠ .finr → (∀ data, i ≠ .hash data) →
    t.digest = s.digest ∧ t.dvalid = s.dvalid

/-- R20, R23: an instruction that performs no `NEW`, no `FEEDFWD` and no compression leaves `H` alone; one that
stores no byte leaves every byte of `BUF` alone; and only the byte count and a reinitialisation change
`TOTAL`. -/
def Obligations.UntouchedStateStaysAsItWas : Prop :=
  ∀ (i : Instr) (s t : State), exec i s = .next t →
    (i ∉ [.new, .fin, .finr, .feedfwd, .compress, .pad] → (∀ d, i ≠ .updb d) → (∀ d, i ≠ .update d) →
      (∀ d, i ≠ .hash d) → t.h = s.h) ∧
    (i ∉ [.fin, .finr, .pad] → (∀ d, i ≠ .updb d) → (∀ d, i ≠ .update d) → (∀ d, i ≠ .hash d) →
      ∀ a, t.buf.read a = s.buf.read a) ∧
    (i ∉ [.new, .fin, .finr] → (∀ d, i ≠ .updb d) → (∀ d, i ≠ .update d) → (∀ d, i ≠ .hash d) →
      t.total = s.total ∧ t.cur = s.cur)

/-- R33: only `FIN` (and `HASH`, which ends with it) enters phase `SPENT`, and only `NEW` leaves it for good. -/
def Obligations.OnlyFinSpendsAndOnlyNewRevives : Prop :=
  ∀ (i : Instr) (s t : State), exec i s = .next t →
    (s.phase = .acc → t.phase = .spent → i = .fin ∨ ∃ data, i = .hash data) ∧
    (s.phase = .spent → t.phase = .acc → i = .new)

/-! The whole machine -/

/-- R230, R44: the state after reset, as far as the spec gives values; it is Fresh, at a command boundary, and
its buffer is in canonical form. -/
def Obligations.ResetStateIsFresh : Prop :=
  State.reset.h = ⟨0x67452301#32, 0xefcdab89#32, 0x98badcfe#32, 0x10325476#32⟩ ∧
  State.reset.total = 0#64 ∧ State.reset.cur = 0#6 ∧ State.reset.phase = .acc ∧
  State.reset.dvalid = false ∧ State.reset.busy = false ∧
  Fresh State.reset ∧ AtBoundary State.reset ∧ State.reset.buf.wf = true

/-- R230 to R232: an edge with `rst = 1` gives the reset state from any state, whatever is in progress and
whatever the command port carries. What reset leaves unspecified is not claimed. -/
def Obligations.ResetEdgeWinsFromAnyState : Prop :=
  ∀ (s : State) (e : Edge) (later : List Event), e.rst = true →
    ∃ t, step { s with inbox := .edge e :: later } = .next t ∧
      t.h = ⟨0x67452301#32, 0xefcdab89#32, 0x98badcfe#32, 0x10325476#32⟩ ∧
      t.total = 0#64 ∧ t.cur = 0#6 ∧ t.phase = .acc ∧ t.dvalid = false ∧ t.busy = false ∧
      t.todo = [] ∧ t.offered = none ∧ t.inbox = later

/-- R235: the three ways to a Fresh accumulator, and what each leaves in `DVALID` and `DIGEST`; after `FINR`,
`DIGEST` is the digest just produced. -/
def Obligations.ThreeWaysToAFreshAccumulator : Prop :=
  ∀ (s : State) (e : Edge) (later : List Event), e.rst = true →
    (∃ t, step { s with inbox := .edge e :: later } = .next t ∧ Fresh t ∧ t.dvalid = false) ∧
    (∃ t, exec .new s = .next t ∧ Fresh t ∧ t.dvalid = s.dvalid ∧ t.digest = s.digest) ∧
    (s.phase = .acc → ∃ p q t, exec .pad s = .next p ∧ exec .serialize p = .next q ∧ exec .finr s = .next t ∧
      Fresh t ∧ t.dvalid = true ∧ t.digest = q.digest)

/-- A step of a ready unit that is given a command word runs the decoded instruction, and takes the word from
the port. -/
def Obligations.StepRunsTheCommandWord : Prop :=
  ∀ (s : State) (w : BitVec 10) (later : List Event), s.busy = false →
    (s.offered = none ∨ s.offered = some w) →
    step { s with inbox := .command w :: later } =
      exec (decode (.cmd w)) { s with inbox := later, offered := none }

/-- A step of a unit whose next micro-operation is a round runs the instruction its round index decodes to. -/
def Obligations.StepRunsTheRoundWord : Prop :=
  ∀ (s : State) (rest : List Micro) (e : Edge) (later : List Event),
    s.busy = true → s.todo = .round :: rest → s.offered = none →
    e.rst = false → e.advance = true →
    step { s with inbox := .edge e :: later } =
      exec (decode (.rnd s.ri))
        { s with inbox := later, todo := rest, busy := !rest.isEmpty,
                 offered := if e.valid then some e.cmd else none }

/-- A step of a state that `withFetchWord` made runs the instruction the table word decodes to. How a program
reaches the machine is the model's choice (log 1). -/
def Obligations.StepRunsThePlacedTableWord : Prop :=
  ∀ (s : State) (w : Nat) (i : Instr),
    (decodeTableWord 16 w = some i →
      step (s.withFetchWord 16 w) = exec i { s with busy := false, todo := [], offered := none }) ∧
    (decodeTableWord 8 w = some i →
      step (s.withFetchWord 8 w) =
        exec i { s with ri := BitVec.ofNat 6 w, busy := !s.todo.isEmpty, offered := none })

/-- A command accepted at a clock edge and run micro-operation by micro-operation ends in the very outcome
the atomic command has, refusals included. R82, R37, R242: the accepting edge raises `BUSY` and changes nothing
else the spec gives the machine, and until the last micro-operation `BUSY` stays 1 and `DIGEST` and `DVALID` are
as before. The model's readings and choices: the accepting edge performs no micro-operation (log 16), a step
with no event is an idle edge (log 15), the split into micro-operations (log 18), `DIGEST` written with the
last one (log 21). -/
def Obligations.EdgeByEdgeRunEqualsTheAtomicCommand : Prop :=
  ∀ (s : State) (w : BitVec 10) (adv : Bool), AtBoundary s →
    let offer : State := { s with inbox := [.edge { rst := false, valid := true, cmd := w, advance := adv }] }
    runSteps (1 + (plan (decode (.cmd w)) s).length) offer = exec (decode (.cmd w)) { s with inbox := [] } ∧
    (s.phase = .acc ∨ decode (.cmd w) = .new →
      step offer = .next { s with inbox := [], busy := true, todo := plan (decode (.cmd w)) s } ∧
      ∀ k, k < (plan (decode (.cmd w)) s).length →
        ∃ t, runSteps (1 + k) offer = .next t ∧
          t.busy = true ∧ t.digest = s.digest ∧ t.dvalid = s.dvalid)

/-- R240: a busy unit does not take the word the host offers; the word stays offered, and the unit goes on with
the command in progress: an edge at which the micro-operation in progress does not complete changes nothing
else, and one at which it does has that micro-operation's effect and no other, with `BUSY` falling with the
last one. The same with `cmd_valid = 0`. A step on a command event is such an edge, with the event left for
later. The model's choices: the field that records the held word (log 15), the free choice whether the
micro-operation completes (log 4), the command event that waits (log 3), the micro-operations (log 18, log
21). -/
def Obligations.BusyUnitLeavesTheOfferedCommand : Prop :=
  ∀ (s : State) (later : List Event), s.busy = true →
    (∀ e : Edge, e.rst = false → (s.offered = none ∨ (e.valid = true ∧ s.offered = some e.cmd)) →
      let held : State := { s with inbox := later, offered := if e.valid then some e.cmd else none }
      (e.advance = false → step { s with inbox := .edge e :: later } = .next held) ∧
      (e.advance = true → ∀ m rest, s.todo = m :: rest →
        let t : State := { held with todo := rest, busy := !rest.isEmpty }
        step { s with inbox := .edge e :: later } =
          match m with
          | .store d => .next { t with total := t.total + 1#64, buf := t.buf.write t.cur.toNat d }
          | .bumpCursor => .next { t with cur := t.cur + 1#6 }
          | .clearCursor => .next { t with cur := 0#6 }
          | .seed => exec .seed t
          | .round => exec (decode (.rnd t.ri)) t
          | .feedfwd => exec .feedfwd t
          | .marker => .next { t with buf := t.buf.write t.cur.toNat 0x80#8 }
          | .zeroToLength => .next { t with buf := memWrite t.buf (t.cur.toNat + 1) (56 - (t.cur.toNat + 1)) 0 }
          | .zeroToEnd => .next { t with buf := memWrite t.buf (t.cur.toNat + 1) (64 - (t.cur.toNat + 1)) 0 }
          | .zeroHead => .next { t with buf := memWrite t.buf 0 56 0 }
          | .length => .next { t with buf := memWrite t.buf 56 8 (t.total.toNat * 8 % 2 ^ 64) }
          | .serialize => exec .serialize t
          | .serializeSpend => andThen (exec .serialize t) fun u => .next { u with phase := .spent }
          | .serializeRenew => execAll [.serialize, .new] t
          | .reinit => exec .new t)) ∧
    ∀ w : BitVec 10, (s.offered = none ∨ s.offered = some w) →
      step { s with inbox := .command w :: later } =
        step { s with inbox := .edge { rst := false, valid := true, cmd := w, advance := true } ::
                        .command w :: later }

/-- A host that changes `cmd` or drops `cmd_valid` while its word is held is refused (U12). That this covers the
first edge with `cmd_ready = 1` after the wait is the model's choice (log 22). -/
def Obligations.BrokenHandshakeIsRefused : Prop :=
  ∀ (s : State) (v : BitVec 10) (e : Edge) (later : List Event), s.offered = some v → e.rst = false →
    (e.valid = false ∨ e.cmd ≠ v) →
    step { s with inbox := .edge e :: later } = .refused .handshake

/-- R250: idle time changes nothing at a command boundary. -/
def Obligations.IdleEdgesHoldTheState : Prop :=
  ∀ (s : State) (e : Edge) (later : List Event), AtBoundary s → e.rst = false → e.valid = false →
    step { s with inbox := .edge e :: later } = .next { s with inbox := later } ∧
    step { s with inbox := [] } = .next { s with inbox := [] }

/-- R242: the host reads a digest exactly while `digest_valid = 1` and `cmd_ready = 1`. -/
def Obligations.DigestIsReadOnlyWhenItIsThere : Prop :=
  ∀ s : State,
    (observe s).ready = !s.busy ∧ (observe s).digestValid = s.dvalid ∧
    ((observe s).digest = some (digestPort s) ↔ s.dvalid = true ∧ s.busy = false) ∧
    ((observe s).digest = none ↔ ¬ (s.dvalid = true ∧ s.busy = false))

/-- The invariant holds after reset. -/
def Obligations.InvariantHoldsAtReset : Prop := Inv State.reset

/-- R32: the invariant is kept by every step from every state that meets it: the buffer stays canonical,
`BUSY` says what it says, and in phase `ACC` the cursor stays the low six bits of the counter. -/
def Obligations.EveryStepKeepsTheInvariant : Prop :=
  ∀ s t : State, Inv s → step s = .next t → Inv t

/-- R205: from a live accumulator, a command stream in which every `FIN` is followed by `NEW` or ends the stream
runs through; any other runs up to its first offending command and is refused there. -/
def Obligations.LegalStreamsAreNeverRefused : Prop :=
  ∀ (ws : List (BitVec 10)) (s : State), AtBoundary s → s.phase = .acc →
    (finThenNew (ws.map decodeCmd) → ∃ t, runSteps ws.length (withCommands ws s) = .next t) ∧
    (¬ finThenNew (ws.map decodeCmd) → ∃ n, n < ws.length ∧
      finThenNew ((ws.take n).map decodeCmd) ∧ ¬ finThenNew ((ws.take (n + 1)).map decodeCmd) ∧
      (∃ t, runSteps n (withCommands ws s) = .next t) ∧
      runSteps (n + 1) (withCommands ws s) = .refused .consumed)

/-- What the spec leaves open (`a, b, c, d`, `RI`, `BUF` beyond `CUR`, `DIGEST` while not valid, everything of the
message in phase `SPENT`) influences nothing: two states that differ only there stay so, and are refused
together, whatever command stream follows. -/
def Obligations.OpenValuesInfluenceNothing : Prop :=
  ∀ (ws : List (BitVec 10)) (s t : State), s.buf.wf = true → t.buf.wf = true → AtBoundary s → AtBoundary t →
    SameButOpen s t →
    (∃ s' t', runSteps ws.length (withCommands ws s) = .next s' ∧
      runSteps ws.length (withCommands ws t) = .next t' ∧ SameButOpen s' t' ∧
      (observe s').digest = (observe t').digest) ∨
    (runSteps ws.length (withCommands ws s) = .refused .consumed ∧
      runSteps ws.length (withCommands ws t) = .refused .consumed)
end

