-- ==== Sys2Proof/Laws/Memory.lean ====
section
/-! SUPPORT. The laws of the buffer: reading back what was written, leaving every other byte alone, and
keeping the canonical form. -/

namespace Sys2Proof.Machine

theorem Memory.wfFrom_mono {m : Memory} {lo lo' : Nat} (h : lo' ≤ lo) (hm : Memory.wfFrom lo m = true) :
    Memory.wfFrom lo' m = true := by
  cases m with
  | nil => rfl
  | cons c m =>
    simp only [Memory.wfFrom, Bool.and_eq_true, decide_eq_true_eq] at hm ⊢
    exact ⟨⟨⟨by omega, hm.1.1.2⟩, hm.1.2⟩, hm.2⟩

/-- Below its lowest address a buffer reads as unwritten. -/
theorem Memory.read_below {m : Memory} {lo a : Nat} (h : a < lo) (hm : Memory.wfFrom lo m = true) :
    m.read a = Config.unwritten := by
  induction m generalizing lo with
  | nil => rfl
  | cons c m ih =>
    obtain ⟨a', v'⟩ := c
    simp only [Memory.wfFrom, Bool.and_eq_true, decide_eq_true_eq] at hm
    have hne : a ≠ a' := by omega
    simp only [Memory.read, if_neg hne]
    exact ih (by omega) hm.2

theorem Memory.read_write_other (m : Memory) {a b : Nat} (v : Byte) (h : b ≠ a) :
    (m.write a v).read b = m.read b := by
  induction m with
  | nil => by_cases hv : v = Config.unwritten <;> simp [Memory.write, Memory.read, hv, h]
  | cons c m ih =>
    obtain ⟨a', v'⟩ := c
    by_cases h1 : a < a'
    · by_cases hv : v = Config.unwritten <;> simp [Memory.write, Memory.read, hv, h, h1]
    · by_cases h2 : a = a'
      · subst h2
        by_cases hv : v = Config.unwritten <;> simp [Memory.write, Memory.read, hv, h]
      · simp only [Memory.write, Memory.read, if_neg h1, if_neg h2, ih]

theorem Memory.read_write_same_from {m : Memory} {lo a : Nat} (v : Byte) (hm : Memory.wfFrom lo m = true) :
    (m.write a v).read a = v := by
  induction m generalizing lo with
  | nil => by_cases hv : v = Config.unwritten <;> simp [Memory.write, Memory.read, hv]
  | cons c m ih =>
    obtain ⟨a', v'⟩ := c
    simp only [Memory.wfFrom, Bool.and_eq_true, decide_eq_true_eq] at hm
    by_cases h1 : a < a'
    · have hbelow := Memory.read_below (a := a) (by omega : a < a' + 1) hm.2
      have hne : a ≠ a' := by omega
      by_cases hv : v = Config.unwritten
      · simp [Memory.write, Memory.read, hv, h1, hne, hbelow]
      · simp [Memory.write, Memory.read, hv, h1]
    · by_cases h2 : a = a'
      · subst h2
        by_cases hv : v = Config.unwritten
        · simp [Memory.write, hv, Memory.read_below (Nat.lt_succ_self _) hm.2]
        · simp [Memory.write, Memory.read, hv]
      · simp only [Memory.write, Memory.read, if_neg h1, if_neg h2]
        exact ih hm.2

/-- A write is read back. -/
theorem Memory.read_write_same {m : Memory} (hm : m.wf = true) (a : Nat) (v : Byte) :
    (m.write a v).read a = v :=
  Memory.read_write_same_from v hm

theorem Memory.wfFrom_write {m : Memory} {lo a : Nat} (v : Byte) (hlo : lo ≤ a) (ha : a < blockBytes)
    (hm : Memory.wfFrom lo m = true) : Memory.wfFrom lo (m.write a v) = true := by
  induction m generalizing lo with
  | nil => by_cases hv : v = Config.unwritten <;> simp [Memory.write, Memory.wfFrom, hv, hlo, ha]
  | cons c m ih =>
    obtain ⟨a', v'⟩ := c
    simp only [Memory.wfFrom, Bool.and_eq_true, decide_eq_true_eq, bne_iff_ne] at hm
    obtain ⟨⟨⟨h1, h2⟩, h3⟩, h4⟩ := hm
    by_cases hlt : a < a'
    · by_cases hv : v = Config.unwritten <;>
        simp [Memory.write, Memory.wfFrom, hv, hlt, h1, h2, h3, h4, hlo, ha]
    · by_cases heq : a = a'
      · subst heq
        by_cases hv : v = Config.unwritten
        · simp [Memory.write, hv, Memory.wfFrom_mono (by omega : lo ≤ a + 1) h4]
        · simp [Memory.write, Memory.wfFrom, hv, h4, hlo, ha]
      · simp [Memory.write, Memory.wfFrom, hlt, heq, h1, h2, h3, ih (by omega : a' + 1 ≤ a) h4]

/-- A write inside the buffer keeps the canonical form. -/
theorem Memory.wf_write {m : Memory} (hm : m.wf = true) {a : Nat} (v : Byte) (ha : a < blockBytes) :
    (m.write a v).wf = true :=
  Memory.wfFrom_write v (Nat.zero_le _) ha hm

theorem wf_memWrite {m : Memory} (hm : m.wf = true) {a n : Nat} (v : Nat) (h : a + n ≤ blockBytes) :
    (memWrite m a n v).wf = true := by
  induction n generalizing m a v with
  | zero => exact hm
  | succ n ih => exact ih (Memory.wf_write hm _ (by omega)) _ (by omega)

/-- Zero filling is `MemWrite` of the value 0. -/
theorem zeroFill_eq_memWrite (m : Memory) (addr n : Nat) : zeroFill m addr n = memWrite m addr n 0 := by
  induction n generalizing m addr with
  | zero => rfl
  | succ n ih => exact ih _ _

theorem wf_zeroFill {m : Memory} (hm : m.wf = true) {a n : Nat} (h : a + n ≤ blockBytes) :
    (zeroFill m a n).wf = true := by
  induction n generalizing m a with
  | zero => exact hm
  | succ n ih => exact ih (wf_memWrite hm _ (by omega)) (by omega)

/-- `MemWrite` leaves every byte outside its range alone. -/
theorem read_memWrite_outside (m : Memory) {a n b : Nat} (v : Nat) (h : b < a ∨ a + n ≤ b) :
    (memWrite m a n v).read b = m.read b := by
  induction n generalizing m a v with
  | zero => rfl
  | succ n ih =>
    exact (ih _ _ (by omega)).trans (Memory.read_write_other m _ (by omega))

/-- `MemWrite` of `n` bytes puts byte `k` of the value at the `k`-th address (`spec/00_scope.md` R15). -/
theorem read_memWrite_inside {m : Memory} (hm : m.wf = true) {a n : Nat} (v : Nat) {k : Nat} (hk : k < n)
    (h : a + n ≤ blockBytes) : (memWrite m a n v).read (a + k) = BitVec.ofNat 8 (v / 256 ^ k) := by
  induction n generalizing m a v k with
  | zero => omega
  | succ n ih =>
    cases k with
    | zero =>
      rw [memWrite, read_memWrite_outside _ _ (by omega), Nat.add_zero, Memory.read_write_same hm]
      simp
    | succ k =>
      have hw := Memory.wf_write hm (BitVec.ofNat 8 v) (by omega : a < blockBytes)
      rw [memWrite, show a + (k + 1) = a + 1 + k by omega, ih hw _ (by omega) (by omega), Nat.div_div_eq_div_mul,
        pow_succ, Nat.mul_comm 256]

/-- A one-byte write is a write of that byte. -/
theorem memWrite_one (m : Memory) (a : Nat) (v : Byte) : memWrite m a 1 v.toNat = m.write a v := by
  simp [memWrite]

theorem read_zeroFill_outside (m : Memory) {a n b : Nat} (h : b < a ∨ a + n ≤ b) :
    (zeroFill m a n).read b = m.read b := by
  induction n generalizing m a with
  | zero => rfl
  | succ n ih => exact (ih _ (by omega)).trans (read_memWrite_outside m _ (by omega))

theorem read_zeroFill_inside {m : Memory} (hm : m.wf = true) {a n b : Nat} (h1 : a ≤ b) (h2 : b < a + n)
    (h : a + n ≤ blockBytes) : (zeroFill m a n).read b = 0x00#8 := by
  induction n generalizing m a with
  | zero => omega
  | succ n ih =>
    by_cases hb : b = a
    · subst hb
      rw [zeroFill, read_zeroFill_outside _ (by omega)]
      exact read_memWrite_inside hm 0 (k := 0) Nat.one_pos (by omega)
    · exact ih (wf_memWrite hm _ (by omega)) (by omega) (by omega) (by omega)

/-- `MemRead` reads the bytes in its range only. -/
theorem memRead_congr {m m' : Memory} {a n : Nat} (h : ∀ b, a ≤ b → b < a + n → m.read b = m'.read b) :
    memRead m a n = memRead m' a n := by
  induction n generalizing a with
  | zero => rfl
  | succ n ih =>
    simp only [memRead, h a (by omega) (by omega)]
    rw [ih fun b h1 h2 => h b (by omega) (by omega)]

/-- `MemRead` reads back what `MemWrite` wrote (`spec/00_scope.md` R15). -/
theorem memRead_memWrite {m : Memory} (hm : m.wf = true) {a n : Nat} (v : Nat) (h : a + n ≤ blockBytes) :
    memRead (memWrite m a n v) a n = v % 256 ^ n := by
  induction n generalizing m a v with
  | zero => simp [memRead, Nat.mod_one]
  | succ n ih =>
    have hw := Memory.wf_write hm (BitVec.ofNat 8 v) (by omega : a < blockBytes)
    rw [memWrite, memRead, ih hw _ (by omega), read_memWrite_outside _ _ (by omega), Memory.read_write_same hm,
      BitVec.toNat_ofNat, show 2 ^ 8 = 256 from rfl, Nat.pow_succ 256, Nat.mul_comm (256 ^ n), Nat.mod_mul]

/-- A schedule word depends on the bytes of the buffer only. -/
theorem schedWord_congr {m m' : Memory} (h : ∀ b, b < blockBytes → m.read b = m'.read b) (g : BitVec 4) :
    schedWord m g = schedWord m' g := by
  have hg := g.isLt
  simp only [schedWord]
  rw [memRead_congr fun b h1 h2 => h b (by simp only [blockBytes]; omega)]

end Sys2Proof.Machine
end

