-- ==== Sys2Proof/Laws/State.lean ====
section
/-! SUPPORT. One lemma per field and shared update of the state, each true by `rfl` (written `(rfl)`, so
that simp applies the lemma and never has the kernel compare two states by computing them). The fields a compression leaves alone follow by induction. -/

namespace Sys2Proof.Machine

@[simp] theorem reinitialise_h (s : State) : (reinitialise s).h = iv := (rfl)
@[simp] theorem reinitialise_work (s : State) : (reinitialise s).work = s.work := (rfl)
@[simp] theorem reinitialise_ri (s : State) : (reinitialise s).ri = s.ri := (rfl)
@[simp] theorem reinitialise_cur (s : State) : (reinitialise s).cur = 0#6 := (rfl)
@[simp] theorem reinitialise_total (s : State) : (reinitialise s).total = 0#64 := (rfl)
@[simp] theorem reinitialise_phase (s : State) : (reinitialise s).phase = .acc := (rfl)
@[simp] theorem reinitialise_dvalid (s : State) : (reinitialise s).dvalid = s.dvalid := (rfl)
@[simp] theorem reinitialise_busy (s : State) : (reinitialise s).busy = s.busy := (rfl)
@[simp] theorem reinitialise_digest (s : State) : (reinitialise s).digest = s.digest := (rfl)
@[simp] theorem reinitialise_buf (s : State) : (reinitialise s).buf = s.buf := (rfl)
@[simp] theorem reinitialise_todo (s : State) : (reinitialise s).todo = s.todo := (rfl)
@[simp] theorem reinitialise_offered (s : State) : (reinitialise s).offered = s.offered := (rfl)
@[simp] theorem reinitialise_inbox (s : State) : (reinitialise s).inbox = s.inbox := (rfl)
@[simp] theorem reinitialise_wire (s : State) : (reinitialise s).wire = s.wire := (rfl)

@[simp] theorem hardReset_h (s : State) : (hardReset s).h = iv := (rfl)
@[simp] theorem hardReset_work (s : State) : (hardReset s).work = s.work := (rfl)
@[simp] theorem hardReset_ri (s : State) : (hardReset s).ri = s.ri := (rfl)
@[simp] theorem hardReset_cur (s : State) : (hardReset s).cur = 0#6 := (rfl)
@[simp] theorem hardReset_total (s : State) : (hardReset s).total = 0#64 := (rfl)
@[simp] theorem hardReset_phase (s : State) : (hardReset s).phase = .acc := (rfl)
@[simp] theorem hardReset_dvalid (s : State) : (hardReset s).dvalid = false := (rfl)
@[simp] theorem hardReset_busy (s : State) : (hardReset s).busy = false := (rfl)
@[simp] theorem hardReset_digest (s : State) : (hardReset s).digest = s.digest := (rfl)
@[simp] theorem hardReset_buf (s : State) : (hardReset s).buf = s.buf := (rfl)
@[simp] theorem hardReset_todo (s : State) : (hardReset s).todo = [] := (rfl)
@[simp] theorem hardReset_offered (s : State) : (hardReset s).offered = none := (rfl)
@[simp] theorem hardReset_inbox (s : State) : (hardReset s).inbox = s.inbox := (rfl)
@[simp] theorem hardReset_wire (s : State) : (hardReset s).wire = s.wire := (rfl)

@[simp] theorem driveWire_h (v : Word) (s : State) : (driveWire v s).h = s.h := (rfl)
@[simp] theorem driveWire_work (v : Word) (s : State) : (driveWire v s).work = s.work := (rfl)
@[simp] theorem driveWire_ri (v : Word) (s : State) : (driveWire v s).ri = s.ri := (rfl)
@[simp] theorem driveWire_cur (v : Word) (s : State) : (driveWire v s).cur = s.cur := (rfl)
@[simp] theorem driveWire_total (v : Word) (s : State) : (driveWire v s).total = s.total := (rfl)
@[simp] theorem driveWire_phase (v : Word) (s : State) : (driveWire v s).phase = s.phase := (rfl)
@[simp] theorem driveWire_dvalid (v : Word) (s : State) : (driveWire v s).dvalid = s.dvalid := (rfl)
@[simp] theorem driveWire_busy (v : Word) (s : State) : (driveWire v s).busy = s.busy := (rfl)
@[simp] theorem driveWire_digest (v : Word) (s : State) : (driveWire v s).digest = s.digest := (rfl)
@[simp] theorem driveWire_buf (v : Word) (s : State) : (driveWire v s).buf = s.buf := (rfl)
@[simp] theorem driveWire_todo (v : Word) (s : State) : (driveWire v s).todo = s.todo := (rfl)
@[simp] theorem driveWire_offered (v : Word) (s : State) : (driveWire v s).offered = s.offered := (rfl)
@[simp] theorem driveWire_inbox (v : Word) (s : State) : (driveWire v s).inbox = s.inbox := (rfl)
@[simp] theorem driveWire_wire (v : Word) (s : State) : (driveWire v s).wire = v := (rfl)

@[simp] theorem markDigestValid_h (s : State) : (markDigestValid s).h = s.h := (rfl)
@[simp] theorem markDigestValid_work (s : State) : (markDigestValid s).work = s.work := (rfl)
@[simp] theorem markDigestValid_ri (s : State) : (markDigestValid s).ri = s.ri := (rfl)
@[simp] theorem markDigestValid_cur (s : State) : (markDigestValid s).cur = s.cur := (rfl)
@[simp] theorem markDigestValid_total (s : State) : (markDigestValid s).total = s.total := (rfl)
@[simp] theorem markDigestValid_phase (s : State) : (markDigestValid s).phase = s.phase := (rfl)
@[simp] theorem markDigestValid_dvalid (s : State) : (markDigestValid s).dvalid = true := (rfl)
@[simp] theorem markDigestValid_busy (s : State) : (markDigestValid s).busy = s.busy := (rfl)
@[simp] theorem markDigestValid_digest (s : State) : (markDigestValid s).digest = s.digest := (rfl)
@[simp] theorem markDigestValid_buf (s : State) : (markDigestValid s).buf = s.buf := (rfl)
@[simp] theorem markDigestValid_todo (s : State) : (markDigestValid s).todo = s.todo := (rfl)
@[simp] theorem markDigestValid_offered (s : State) : (markDigestValid s).offered = s.offered := (rfl)
@[simp] theorem markDigestValid_inbox (s : State) : (markDigestValid s).inbox = s.inbox := (rfl)
@[simp] theorem markDigestValid_wire (s : State) : (markDigestValid s).wire = s.wire := (rfl)

@[simp] theorem markSpent_h (s : State) : (markSpent s).h = s.h := (rfl)
@[simp] theorem markSpent_work (s : State) : (markSpent s).work = s.work := (rfl)
@[simp] theorem markSpent_ri (s : State) : (markSpent s).ri = s.ri := (rfl)
@[simp] theorem markSpent_cur (s : State) : (markSpent s).cur = s.cur := (rfl)
@[simp] theorem markSpent_total (s : State) : (markSpent s).total = s.total := (rfl)
@[simp] theorem markSpent_phase (s : State) : (markSpent s).phase = .spent := (rfl)
@[simp] theorem markSpent_dvalid (s : State) : (markSpent s).dvalid = s.dvalid := (rfl)
@[simp] theorem markSpent_busy (s : State) : (markSpent s).busy = s.busy := (rfl)
@[simp] theorem markSpent_digest (s : State) : (markSpent s).digest = s.digest := (rfl)
@[simp] theorem markSpent_buf (s : State) : (markSpent s).buf = s.buf := (rfl)
@[simp] theorem markSpent_todo (s : State) : (markSpent s).todo = s.todo := (rfl)
@[simp] theorem markSpent_offered (s : State) : (markSpent s).offered = s.offered := (rfl)
@[simp] theorem markSpent_inbox (s : State) : (markSpent s).inbox = s.inbox := (rfl)
@[simp] theorem markSpent_wire (s : State) : (markSpent s).wire = s.wire := (rfl)

@[simp] theorem seedWork_h (s : State) : (seedWork s).h = s.h := (rfl)
@[simp] theorem seedWork_work (s : State) : (seedWork s).work = s.h := (rfl)
@[simp] theorem seedWork_ri (s : State) : (seedWork s).ri = 0#6 := (rfl)
@[simp] theorem seedWork_cur (s : State) : (seedWork s).cur = s.cur := (rfl)
@[simp] theorem seedWork_total (s : State) : (seedWork s).total = s.total := (rfl)
@[simp] theorem seedWork_phase (s : State) : (seedWork s).phase = s.phase := (rfl)
@[simp] theorem seedWork_dvalid (s : State) : (seedWork s).dvalid = s.dvalid := (rfl)
@[simp] theorem seedWork_busy (s : State) : (seedWork s).busy = s.busy := (rfl)
@[simp] theorem seedWork_digest (s : State) : (seedWork s).digest = s.digest := (rfl)
@[simp] theorem seedWork_buf (s : State) : (seedWork s).buf = s.buf := (rfl)
@[simp] theorem seedWork_todo (s : State) : (seedWork s).todo = s.todo := (rfl)
@[simp] theorem seedWork_offered (s : State) : (seedWork s).offered = s.offered := (rfl)
@[simp] theorem seedWork_inbox (s : State) : (seedWork s).inbox = s.inbox := (rfl)
@[simp] theorem seedWork_wire (s : State) : (seedWork s).wire = s.wire := (rfl)

@[simp] theorem roundWith_h (fn : Word → Word → Word → Word) (g : BitVec 4) (i : BitVec 6) (s : State) : (roundWith fn g i s).h = s.h := (rfl)
@[simp] theorem roundWith_work (fn : Word → Word → Word → Word) (g : BitVec 4) (i : BitVec 6) (s : State) : (roundWith fn g i s).work = roundWords fn (schedWord s.buf g) (kRom i) (sRom i) s.work := (rfl)
@[simp] theorem roundWith_ri (fn : Word → Word → Word → Word) (g : BitVec 4) (i : BitVec 6) (s : State) : (roundWith fn g i s).ri = nextRoundIndex i s.ri := (rfl)
@[simp] theorem roundWith_cur (fn : Word → Word → Word → Word) (g : BitVec 4) (i : BitVec 6) (s : State) : (roundWith fn g i s).cur = s.cur := (rfl)
@[simp] theorem roundWith_total (fn : Word → Word → Word → Word) (g : BitVec 4) (i : BitVec 6) (s : State) : (roundWith fn g i s).total = s.total := (rfl)
@[simp] theorem roundWith_phase (fn : Word → Word → Word → Word) (g : BitVec 4) (i : BitVec 6) (s : State) : (roundWith fn g i s).phase = s.phase := (rfl)
@[simp] theorem roundWith_dvalid (fn : Word → Word → Word → Word) (g : BitVec 4) (i : BitVec 6) (s : State) : (roundWith fn g i s).dvalid = s.dvalid := (rfl)
@[simp] theorem roundWith_busy (fn : Word → Word → Word → Word) (g : BitVec 4) (i : BitVec 6) (s : State) : (roundWith fn g i s).busy = s.busy := (rfl)
@[simp] theorem roundWith_digest (fn : Word → Word → Word → Word) (g : BitVec 4) (i : BitVec 6) (s : State) : (roundWith fn g i s).digest = s.digest := (rfl)
@[simp] theorem roundWith_buf (fn : Word → Word → Word → Word) (g : BitVec 4) (i : BitVec 6) (s : State) : (roundWith fn g i s).buf = s.buf := (rfl)
@[simp] theorem roundWith_todo (fn : Word → Word → Word → Word) (g : BitVec 4) (i : BitVec 6) (s : State) : (roundWith fn g i s).todo = s.todo := (rfl)
@[simp] theorem roundWith_offered (fn : Word → Word → Word → Word) (g : BitVec 4) (i : BitVec 6) (s : State) : (roundWith fn g i s).offered = s.offered := (rfl)
@[simp] theorem roundWith_inbox (fn : Word → Word → Word → Word) (g : BitVec 4) (i : BitVec 6) (s : State) : (roundWith fn g i s).inbox = s.inbox := (rfl)
@[simp] theorem roundWith_wire (fn : Word → Word → Word → Word) (g : BitVec 4) (i : BitVec 6) (s : State) : (roundWith fn g i s).wire = s.wire := (rfl)

@[simp] theorem feedForward_h (s : State) : (feedForward s).h = ⟨add32 s.h.a s.work.a, add32 s.h.b s.work.b, add32 s.h.c s.work.c, add32 s.h.d s.work.d⟩ := (rfl)
@[simp] theorem feedForward_work (s : State) : (feedForward s).work = s.work := (rfl)
@[simp] theorem feedForward_ri (s : State) : (feedForward s).ri = s.ri := (rfl)
@[simp] theorem feedForward_cur (s : State) : (feedForward s).cur = s.cur := (rfl)
@[simp] theorem feedForward_total (s : State) : (feedForward s).total = s.total := (rfl)
@[simp] theorem feedForward_phase (s : State) : (feedForward s).phase = s.phase := (rfl)
@[simp] theorem feedForward_dvalid (s : State) : (feedForward s).dvalid = s.dvalid := (rfl)
@[simp] theorem feedForward_busy (s : State) : (feedForward s).busy = s.busy := (rfl)
@[simp] theorem feedForward_digest (s : State) : (feedForward s).digest = s.digest := (rfl)
@[simp] theorem feedForward_buf (s : State) : (feedForward s).buf = s.buf := (rfl)
@[simp] theorem feedForward_todo (s : State) : (feedForward s).todo = s.todo := (rfl)
@[simp] theorem feedForward_offered (s : State) : (feedForward s).offered = s.offered := (rfl)
@[simp] theorem feedForward_inbox (s : State) : (feedForward s).inbox = s.inbox := (rfl)
@[simp] theorem feedForward_wire (s : State) : (feedForward s).wire = s.wire := (rfl)

@[simp] theorem storeByte_h (d : Byte) (s : State) : (storeByte d s).h = s.h := (rfl)
@[simp] theorem storeByte_work (d : Byte) (s : State) : (storeByte d s).work = s.work := (rfl)
@[simp] theorem storeByte_ri (d : Byte) (s : State) : (storeByte d s).ri = s.ri := (rfl)
@[simp] theorem storeByte_cur (d : Byte) (s : State) : (storeByte d s).cur = s.cur := (rfl)
@[simp] theorem storeByte_total (d : Byte) (s : State) : (storeByte d s).total = s.total + 1#64 := (rfl)
@[simp] theorem storeByte_phase (d : Byte) (s : State) : (storeByte d s).phase = s.phase := (rfl)
@[simp] theorem storeByte_dvalid (d : Byte) (s : State) : (storeByte d s).dvalid = s.dvalid := (rfl)
@[simp] theorem storeByte_busy (d : Byte) (s : State) : (storeByte d s).busy = s.busy := (rfl)
@[simp] theorem storeByte_digest (d : Byte) (s : State) : (storeByte d s).digest = s.digest := (rfl)
@[simp] theorem storeByte_buf (d : Byte) (s : State) : (storeByte d s).buf = memWrite s.buf s.cur.toNat 1 d.toNat := (rfl)
@[simp] theorem storeByte_todo (d : Byte) (s : State) : (storeByte d s).todo = s.todo := (rfl)
@[simp] theorem storeByte_offered (d : Byte) (s : State) : (storeByte d s).offered = s.offered := (rfl)
@[simp] theorem storeByte_inbox (d : Byte) (s : State) : (storeByte d s).inbox = s.inbox := (rfl)
@[simp] theorem storeByte_wire (d : Byte) (s : State) : (storeByte d s).wire = s.wire := (rfl)

@[simp] theorem bumpCursor_h (s : State) : (bumpCursor s).h = s.h := (rfl)
@[simp] theorem bumpCursor_work (s : State) : (bumpCursor s).work = s.work := (rfl)
@[simp] theorem bumpCursor_ri (s : State) : (bumpCursor s).ri = s.ri := (rfl)
@[simp] theorem bumpCursor_cur (s : State) : (bumpCursor s).cur = s.cur + 1#6 := (rfl)
@[simp] theorem bumpCursor_total (s : State) : (bumpCursor s).total = s.total := (rfl)
@[simp] theorem bumpCursor_phase (s : State) : (bumpCursor s).phase = s.phase := (rfl)
@[simp] theorem bumpCursor_dvalid (s : State) : (bumpCursor s).dvalid = s.dvalid := (rfl)
@[simp] theorem bumpCursor_busy (s : State) : (bumpCursor s).busy = s.busy := (rfl)
@[simp] theorem bumpCursor_digest (s : State) : (bumpCursor s).digest = s.digest := (rfl)
@[simp] theorem bumpCursor_buf (s : State) : (bumpCursor s).buf = s.buf := (rfl)
@[simp] theorem bumpCursor_todo (s : State) : (bumpCursor s).todo = s.todo := (rfl)
@[simp] theorem bumpCursor_offered (s : State) : (bumpCursor s).offered = s.offered := (rfl)
@[simp] theorem bumpCursor_inbox (s : State) : (bumpCursor s).inbox = s.inbox := (rfl)
@[simp] theorem bumpCursor_wire (s : State) : (bumpCursor s).wire = s.wire := (rfl)

@[simp] theorem clearCursor_h (s : State) : (clearCursor s).h = s.h := (rfl)
@[simp] theorem clearCursor_work (s : State) : (clearCursor s).work = s.work := (rfl)
@[simp] theorem clearCursor_ri (s : State) : (clearCursor s).ri = s.ri := (rfl)
@[simp] theorem clearCursor_cur (s : State) : (clearCursor s).cur = 0#6 := (rfl)
@[simp] theorem clearCursor_total (s : State) : (clearCursor s).total = s.total := (rfl)
@[simp] theorem clearCursor_phase (s : State) : (clearCursor s).phase = s.phase := (rfl)
@[simp] theorem clearCursor_dvalid (s : State) : (clearCursor s).dvalid = s.dvalid := (rfl)
@[simp] theorem clearCursor_busy (s : State) : (clearCursor s).busy = s.busy := (rfl)
@[simp] theorem clearCursor_digest (s : State) : (clearCursor s).digest = s.digest := (rfl)
@[simp] theorem clearCursor_buf (s : State) : (clearCursor s).buf = s.buf := (rfl)
@[simp] theorem clearCursor_todo (s : State) : (clearCursor s).todo = s.todo := (rfl)
@[simp] theorem clearCursor_offered (s : State) : (clearCursor s).offered = s.offered := (rfl)
@[simp] theorem clearCursor_inbox (s : State) : (clearCursor s).inbox = s.inbox := (rfl)
@[simp] theorem clearCursor_wire (s : State) : (clearCursor s).wire = s.wire := (rfl)

@[simp] theorem putMarker_h (s : State) : (putMarker s).h = s.h := (rfl)
@[simp] theorem putMarker_work (s : State) : (putMarker s).work = s.work := (rfl)
@[simp] theorem putMarker_ri (s : State) : (putMarker s).ri = s.ri := (rfl)
@[simp] theorem putMarker_cur (s : State) : (putMarker s).cur = s.cur := (rfl)
@[simp] theorem putMarker_total (s : State) : (putMarker s).total = s.total := (rfl)
@[simp] theorem putMarker_phase (s : State) : (putMarker s).phase = s.phase := (rfl)
@[simp] theorem putMarker_dvalid (s : State) : (putMarker s).dvalid = s.dvalid := (rfl)
@[simp] theorem putMarker_busy (s : State) : (putMarker s).busy = s.busy := (rfl)
@[simp] theorem putMarker_digest (s : State) : (putMarker s).digest = s.digest := (rfl)
@[simp] theorem putMarker_buf (s : State) : (putMarker s).buf = memWrite s.buf s.cur.toNat 1 padMarker := (rfl)
@[simp] theorem putMarker_todo (s : State) : (putMarker s).todo = s.todo := (rfl)
@[simp] theorem putMarker_offered (s : State) : (putMarker s).offered = s.offered := (rfl)
@[simp] theorem putMarker_inbox (s : State) : (putMarker s).inbox = s.inbox := (rfl)
@[simp] theorem putMarker_wire (s : State) : (putMarker s).wire = s.wire := (rfl)

@[simp] theorem zeroTail_h (hi : Nat) (s : State) : (zeroTail hi s).h = s.h := (rfl)
@[simp] theorem zeroTail_work (hi : Nat) (s : State) : (zeroTail hi s).work = s.work := (rfl)
@[simp] theorem zeroTail_ri (hi : Nat) (s : State) : (zeroTail hi s).ri = s.ri := (rfl)
@[simp] theorem zeroTail_cur (hi : Nat) (s : State) : (zeroTail hi s).cur = s.cur := (rfl)
@[simp] theorem zeroTail_total (hi : Nat) (s : State) : (zeroTail hi s).total = s.total := (rfl)
@[simp] theorem zeroTail_phase (hi : Nat) (s : State) : (zeroTail hi s).phase = s.phase := (rfl)
@[simp] theorem zeroTail_dvalid (hi : Nat) (s : State) : (zeroTail hi s).dvalid = s.dvalid := (rfl)
@[simp] theorem zeroTail_busy (hi : Nat) (s : State) : (zeroTail hi s).busy = s.busy := (rfl)
@[simp] theorem zeroTail_digest (hi : Nat) (s : State) : (zeroTail hi s).digest = s.digest := (rfl)
@[simp] theorem zeroTail_buf (hi : Nat) (s : State) : (zeroTail hi s).buf = zeroFill s.buf (s.cur.toNat + 1) (hi - (s.cur.toNat + 1)) := (rfl)
@[simp] theorem zeroTail_todo (hi : Nat) (s : State) : (zeroTail hi s).todo = s.todo := (rfl)
@[simp] theorem zeroTail_offered (hi : Nat) (s : State) : (zeroTail hi s).offered = s.offered := (rfl)
@[simp] theorem zeroTail_inbox (hi : Nat) (s : State) : (zeroTail hi s).inbox = s.inbox := (rfl)
@[simp] theorem zeroTail_wire (hi : Nat) (s : State) : (zeroTail hi s).wire = s.wire := (rfl)

@[simp] theorem zeroHead_h (s : State) : (zeroHead s).h = s.h := by rw [zeroHead]
@[simp] theorem zeroHead_work (s : State) : (zeroHead s).work = s.work := by rw [zeroHead]
@[simp] theorem zeroHead_ri (s : State) : (zeroHead s).ri = s.ri := by rw [zeroHead]
@[simp] theorem zeroHead_cur (s : State) : (zeroHead s).cur = s.cur := by rw [zeroHead]
@[simp] theorem zeroHead_total (s : State) : (zeroHead s).total = s.total := by rw [zeroHead]
@[simp] theorem zeroHead_phase (s : State) : (zeroHead s).phase = s.phase := by rw [zeroHead]
@[simp] theorem zeroHead_dvalid (s : State) : (zeroHead s).dvalid = s.dvalid := by rw [zeroHead]
@[simp] theorem zeroHead_busy (s : State) : (zeroHead s).busy = s.busy := by rw [zeroHead]
@[simp] theorem zeroHead_digest (s : State) : (zeroHead s).digest = s.digest := by rw [zeroHead]
@[simp] theorem zeroHead_buf (s : State) : (zeroHead s).buf = zeroFill s.buf 0 lenFieldPos := by rw [zeroHead]
@[simp] theorem zeroHead_todo (s : State) : (zeroHead s).todo = s.todo := by rw [zeroHead]
@[simp] theorem zeroHead_offered (s : State) : (zeroHead s).offered = s.offered := by rw [zeroHead]
@[simp] theorem zeroHead_inbox (s : State) : (zeroHead s).inbox = s.inbox := by rw [zeroHead]
@[simp] theorem zeroHead_wire (s : State) : (zeroHead s).wire = s.wire := by rw [zeroHead]

@[simp] theorem putLength_h (s : State) : (putLength s).h = s.h := (rfl)
@[simp] theorem putLength_work (s : State) : (putLength s).work = s.work := (rfl)
@[simp] theorem putLength_ri (s : State) : (putLength s).ri = s.ri := (rfl)
@[simp] theorem putLength_cur (s : State) : (putLength s).cur = s.cur := (rfl)
@[simp] theorem putLength_total (s : State) : (putLength s).total = s.total := (rfl)
@[simp] theorem putLength_phase (s : State) : (putLength s).phase = s.phase := (rfl)
@[simp] theorem putLength_dvalid (s : State) : (putLength s).dvalid = s.dvalid := (rfl)
@[simp] theorem putLength_busy (s : State) : (putLength s).busy = s.busy := (rfl)
@[simp] theorem putLength_digest (s : State) : (putLength s).digest = s.digest := (rfl)
@[simp] theorem putLength_buf (s : State) : (putLength s).buf = memWrite s.buf lenFieldPos lenFieldBytes (bitLength s.total) := (rfl)
@[simp] theorem putLength_todo (s : State) : (putLength s).todo = s.todo := (rfl)
@[simp] theorem putLength_offered (s : State) : (putLength s).offered = s.offered := (rfl)
@[simp] theorem putLength_inbox (s : State) : (putLength s).inbox = s.inbox := (rfl)
@[simp] theorem putLength_wire (s : State) : (putLength s).wire = s.wire := (rfl)

@[simp] theorem serialize_h (s : State) : (serialize s).h = s.h := (rfl)
@[simp] theorem serialize_work (s : State) : (serialize s).work = s.work := (rfl)
@[simp] theorem serialize_ri (s : State) : (serialize s).ri = s.ri := (rfl)
@[simp] theorem serialize_cur (s : State) : (serialize s).cur = s.cur := (rfl)
@[simp] theorem serialize_total (s : State) : (serialize s).total = s.total := (rfl)
@[simp] theorem serialize_phase (s : State) : (serialize s).phase = s.phase := (rfl)
@[simp] theorem serialize_dvalid (s : State) : (serialize s).dvalid = true := (rfl)
@[simp] theorem serialize_busy (s : State) : (serialize s).busy = s.busy := (rfl)
@[simp] theorem serialize_digest (s : State) : (serialize s).digest = digestOf s.h := (rfl)
@[simp] theorem serialize_buf (s : State) : (serialize s).buf = s.buf := (rfl)
@[simp] theorem serialize_todo (s : State) : (serialize s).todo = s.todo := (rfl)
@[simp] theorem serialize_offered (s : State) : (serialize s).offered = s.offered := (rfl)
@[simp] theorem serialize_inbox (s : State) : (serialize s).inbox = s.inbox := (rfl)
@[simp] theorem serialize_wire (s : State) : (serialize s).wire = s.wire := (rfl)

@[simp] theorem beginPlan_h (ms : List Micro) (s : State) : (beginPlan ms s).h = s.h := (rfl)
@[simp] theorem beginPlan_work (ms : List Micro) (s : State) : (beginPlan ms s).work = s.work := (rfl)
@[simp] theorem beginPlan_ri (ms : List Micro) (s : State) : (beginPlan ms s).ri = s.ri := (rfl)
@[simp] theorem beginPlan_cur (ms : List Micro) (s : State) : (beginPlan ms s).cur = s.cur := (rfl)
@[simp] theorem beginPlan_total (ms : List Micro) (s : State) : (beginPlan ms s).total = s.total := (rfl)
@[simp] theorem beginPlan_phase (ms : List Micro) (s : State) : (beginPlan ms s).phase = s.phase := (rfl)
@[simp] theorem beginPlan_dvalid (ms : List Micro) (s : State) : (beginPlan ms s).dvalid = s.dvalid := (rfl)
@[simp] theorem beginPlan_busy (ms : List Micro) (s : State) : (beginPlan ms s).busy = true := (rfl)
@[simp] theorem beginPlan_digest (ms : List Micro) (s : State) : (beginPlan ms s).digest = s.digest := (rfl)
@[simp] theorem beginPlan_buf (ms : List Micro) (s : State) : (beginPlan ms s).buf = s.buf := (rfl)
@[simp] theorem beginPlan_todo (ms : List Micro) (s : State) : (beginPlan ms s).todo = ms := (rfl)
@[simp] theorem beginPlan_offered (ms : List Micro) (s : State) : (beginPlan ms s).offered = s.offered := (rfl)
@[simp] theorem beginPlan_inbox (ms : List Micro) (s : State) : (beginPlan ms s).inbox = s.inbox := (rfl)
@[simp] theorem beginPlan_wire (ms : List Micro) (s : State) : (beginPlan ms s).wire = s.wire := (rfl)

@[simp] theorem roundStep_work (s : State) : (roundStep s).work = roundWords (selectFunction s.ri) (schedWord s.buf (messageIndex s.ri)) (kRom s.ri) (sRom s.ri) s.work := (rfl)
@[simp] theorem roundStep_ri (s : State) : (roundStep s).ri = nextRoundIndex s.ri s.ri := (rfl)
@[simp] theorem roundStep_h (s : State) : (roundStep s).h = s.h := (rfl)
@[simp] theorem roundStep_cur (s : State) : (roundStep s).cur = s.cur := (rfl)
@[simp] theorem roundStep_total (s : State) : (roundStep s).total = s.total := (rfl)
@[simp] theorem roundStep_phase (s : State) : (roundStep s).phase = s.phase := (rfl)
@[simp] theorem roundStep_dvalid (s : State) : (roundStep s).dvalid = s.dvalid := (rfl)
@[simp] theorem roundStep_busy (s : State) : (roundStep s).busy = s.busy := (rfl)
@[simp] theorem roundStep_digest (s : State) : (roundStep s).digest = s.digest := (rfl)
@[simp] theorem roundStep_buf (s : State) : (roundStep s).buf = s.buf := (rfl)
@[simp] theorem roundStep_todo (s : State) : (roundStep s).todo = s.todo := (rfl)
@[simp] theorem roundStep_offered (s : State) : (roundStep s).offered = s.offered := (rfl)
@[simp] theorem roundStep_inbox (s : State) : (roundStep s).inbox = s.inbox := (rfl)
@[simp] theorem roundStep_wire (s : State) : (roundStep s).wire = s.wire := (rfl)

@[simp] theorem roundSteps_h (n : Nat) (s : State) : (roundSteps n s).h = s.h := by
  induction n generalizing s with
  | zero => rfl
  | succ n ih => exact (ih _).trans (roundStep_h s)
@[simp] theorem roundSteps_cur (n : Nat) (s : State) : (roundSteps n s).cur = s.cur := by
  induction n generalizing s with
  | zero => rfl
  | succ n ih => exact (ih _).trans (roundStep_cur s)
@[simp] theorem roundSteps_total (n : Nat) (s : State) : (roundSteps n s).total = s.total := by
  induction n generalizing s with
  | zero => rfl
  | succ n ih => exact (ih _).trans (roundStep_total s)
@[simp] theorem roundSteps_phase (n : Nat) (s : State) : (roundSteps n s).phase = s.phase := by
  induction n generalizing s with
  | zero => rfl
  | succ n ih => exact (ih _).trans (roundStep_phase s)
@[simp] theorem roundSteps_dvalid (n : Nat) (s : State) : (roundSteps n s).dvalid = s.dvalid := by
  induction n generalizing s with
  | zero => rfl
  | succ n ih => exact (ih _).trans (roundStep_dvalid s)
@[simp] theorem roundSteps_busy (n : Nat) (s : State) : (roundSteps n s).busy = s.busy := by
  induction n generalizing s with
  | zero => rfl
  | succ n ih => exact (ih _).trans (roundStep_busy s)
@[simp] theorem roundSteps_digest (n : Nat) (s : State) : (roundSteps n s).digest = s.digest := by
  induction n generalizing s with
  | zero => rfl
  | succ n ih => exact (ih _).trans (roundStep_digest s)
@[simp] theorem roundSteps_buf (n : Nat) (s : State) : (roundSteps n s).buf = s.buf := by
  induction n generalizing s with
  | zero => rfl
  | succ n ih => exact (ih _).trans (roundStep_buf s)
@[simp] theorem roundSteps_todo (n : Nat) (s : State) : (roundSteps n s).todo = s.todo := by
  induction n generalizing s with
  | zero => rfl
  | succ n ih => exact (ih _).trans (roundStep_todo s)
@[simp] theorem roundSteps_offered (n : Nat) (s : State) : (roundSteps n s).offered = s.offered := by
  induction n generalizing s with
  | zero => rfl
  | succ n ih => exact (ih _).trans (roundStep_offered s)
@[simp] theorem roundSteps_inbox (n : Nat) (s : State) : (roundSteps n s).inbox = s.inbox := by
  induction n generalizing s with
  | zero => rfl
  | succ n ih => exact (ih _).trans (roundStep_inbox s)
@[simp] theorem roundSteps_wire (n : Nat) (s : State) : (roundSteps n s).wire = s.wire := by
  induction n generalizing s with
  | zero => rfl
  | succ n ih => exact (ih _).trans (roundStep_wire s)

@[simp] theorem compress_cur (s : State) : (compress s).cur = s.cur := by
  unfold compress; exact (feedForward_cur _).trans ((roundSteps_cur _ _).trans (seedWork_cur s))
@[simp] theorem compress_total (s : State) : (compress s).total = s.total := by
  unfold compress; exact (feedForward_total _).trans ((roundSteps_total _ _).trans (seedWork_total s))
@[simp] theorem compress_phase (s : State) : (compress s).phase = s.phase := by
  unfold compress; exact (feedForward_phase _).trans ((roundSteps_phase _ _).trans (seedWork_phase s))
@[simp] theorem compress_dvalid (s : State) : (compress s).dvalid = s.dvalid := by
  unfold compress; exact (feedForward_dvalid _).trans ((roundSteps_dvalid _ _).trans (seedWork_dvalid s))
@[simp] theorem compress_busy (s : State) : (compress s).busy = s.busy := by
  unfold compress; exact (feedForward_busy _).trans ((roundSteps_busy _ _).trans (seedWork_busy s))
@[simp] theorem compress_digest (s : State) : (compress s).digest = s.digest := by
  unfold compress; exact (feedForward_digest _).trans ((roundSteps_digest _ _).trans (seedWork_digest s))
@[simp] theorem compress_buf (s : State) : (compress s).buf = s.buf := by
  unfold compress; exact (feedForward_buf _).trans ((roundSteps_buf _ _).trans (seedWork_buf s))
@[simp] theorem compress_todo (s : State) : (compress s).todo = s.todo := by
  unfold compress; exact (feedForward_todo _).trans ((roundSteps_todo _ _).trans (seedWork_todo s))
@[simp] theorem compress_offered (s : State) : (compress s).offered = s.offered := by
  unfold compress; exact (feedForward_offered _).trans ((roundSteps_offered _ _).trans (seedWork_offered s))
@[simp] theorem compress_inbox (s : State) : (compress s).inbox = s.inbox := by
  unfold compress; exact (feedForward_inbox _).trans ((roundSteps_inbox _ _).trans (seedWork_inbox s))
@[simp] theorem compress_wire (s : State) : (compress s).wire = s.wire := by
  unfold compress; exact (feedForward_wire _).trans ((roundSteps_wire _ _).trans (seedWork_wire s))

end Sys2Proof.Machine
end

