-- ==== Sys2Proof/Laws/Compression.lean ====
section
/-! SUPPORT. What the Compression Core does: a round word runs the round step of its index, the rounds
count `RI` up, and `COMPRESS` computes the pure function of `H` and the 64 bytes of `BUF`. -/

namespace Sys2Proof.Machine

open Sys2Proof.Safety

@[simp] theorem add32_eq (x y : Word) : add32 x y = x + y := by
  simp [add32, BitVec.ofNat_add]

theorem rotl32_eq (x : Word) (s : Nat) : rotl32 x s = x.rotateLeft s := by
  rw [rotl32, BitVec.rotateLeft_def]

theorem not32_eq (x : Word) : not32 x = ~~~x := by
  simp only [not32]; rw [show (0xffffffff#32 : Word) = BitVec.allOnes 32 by decide, BitVec.xor_allOnes]

/-- The message index by range, written on numbers (`spec/40_compression_core.md` R124). -/
theorem messageIndex_toNat (i : BitVec 6) :
    (messageIndex i).toNat =
      if i.toNat < 16 then i.toNat
      else if i.toNat < 32 then (5 * i.toNat + 1) % 16
      else if i.toNat < 48 then (3 * i.toNat + 5) % 16
      else 7 * i.toNat % 16 := by
  revert i; decide

/-- A round control word runs the round step of its index. -/
theorem exec_decode_rnd (i : BitVec 6) (s : State) :
    exec (decode (.rnd i)) s = .next (roundWith (selectFunction i) (messageIndex i) i s) := by
  have h : (i &&& 0x30#6 = 0x00#6 ∧ i.toNat < 16) ∧ roundIndex 0b00#2 (rndJ i) = i ∨
      (i &&& 0x30#6 = 0x10#6 ∧ 16 ≤ i.toNat ∧ i.toNat < 32) ∧ roundIndex 0b01#2 (rndJ i) = i ∨
      (i &&& 0x30#6 = 0x20#6 ∧ 32 ≤ i.toNat ∧ i.toNat < 48) ∧ roundIndex 0b10#2 (rndJ i) = i ∨
      (i &&& 0x30#6 = 0x30#6 ∧ 48 ≤ i.toNat) ∧ roundIndex 0b11#2 (rndJ i) = i := by revert i; decide
  rcases h with ⟨⟨hm, h1⟩, hj⟩ | ⟨⟨hm, h1, h2⟩, hj⟩ | ⟨⟨hm, h1, h2⟩, hj⟩ | ⟨⟨hm, h1⟩, hj⟩
  · simp [decode, decodeRnd, hm, exec, execRndF, hj, selectFunction, messageIndex, h1]
  · simp [decode, decodeRnd, hm, exec, execRndG, hj, selectFunction, messageIndex, h2,
      show ¬ i.toNat < 16 by omega]
  · simp [decode, decodeRnd, hm, exec, execRndH, hj, selectFunction, messageIndex, h2,
      show ¬ i.toNat < 16 by omega, show ¬ i.toNat < 32 by omega]
  · simp [decode, decodeRnd, hm, exec, execRndI, hj, selectFunction, messageIndex,
      show ¬ i.toNat < 16 by omega, show ¬ i.toNat < 32 by omega, show ¬ i.toNat < 48 by omega]

/-- The round in progress is the round step. -/
theorem exec_decode_ri (s : State) : exec (decode (.rnd s.ri)) s = .next (roundStep s) :=
  exec_decode_rnd s.ri s

@[simp] theorem block_length (s : State) : (block s).length = blockBytes := by simp [block]

/-- The bytes of the block are the bytes of the buffer. -/
theorem block_getElem (s : State) (a : Nat) (h : a < (block s).length) : (block s)[a] = s.buf.read a := by
  simp [block]

theorem block_congr {s t : State} (h : ∀ a, a < blockBytes → s.buf.read a = t.buf.read a) :
    block s = block t := by
  simp only [block]
  exact List.map_congr_left fun a ha => h a (List.mem_range.mp ha)

/-- `MemRead` of the buffer is the little-endian value of the bytes of the block. -/
theorem memRead_block (s : State) (a n : Nat) (h : a + n ≤ blockBytes) :
    memRead s.buf a n = littleEndian (((block s).drop a).take n) := by
  induction n generalizing a with
  | zero => simp [memRead, littleEndian]
  | succ n ih =>
    have ha : a < (block s).length := by simp only [block_length]; omega
    rw [memRead, ih _ (by omega), List.drop_eq_getElem_cons ha, List.take_succ_cons, littleEndian,
      block_getElem]

/-- A schedule word is a word of the block. -/
theorem schedWord_block (s : State) (g : BitVec 4) : schedWord s.buf g = blockWord (block s) g := by
  have := g.isLt
  rw [schedWord, blockWord, memRead_block s _ _ (by simp only [blockBytes]; omega)]

/-- One round step on the working registers is one round of the pure function. -/
theorem roundStep_work_block (s : State) : (roundStep s).work = blockRound (block s) s.work s.ri := by
  rw [roundStep_work, schedWord_block, blockRound]

theorem block_roundStep (s : State) : block (roundStep s) = block s := by
  simp [block]

theorem nextRoundIndex_ofNat {i : Nat} (h : i < 63) (r : BitVec 6) :
    nextRoundIndex (BitVec.ofNat 6 i) r = BitVec.ofNat 6 (i + 1) := by
  have : (BitVec.ofNat 6 i).toNat = i := by simp; omega
  rw [nextRoundIndex, this, if_pos h, BitVec.ofNat_add]

/-- The rounds from index `i` on compute the pure rounds of the remaining indices. -/
theorem roundSteps_work (n i : Nat) (h : i + n ≤ 64) (s : State) (hi : n ≠ 0 → s.ri = BitVec.ofNat 6 i) :
    (roundSteps n s).work =
      ((List.range' i n).map (BitVec.ofNat 6)).foldl (blockRound (block s)) s.work := by
  induction n generalizing i s with
  | zero => simp [roundSteps]
  | succ n ih =>
    have hri := hi (Nat.succ_ne_zero n)
    rw [roundSteps, ih (i + 1) (by omega), block_roundStep, roundStep_work_block, hri]
    · simp [List.range'_succ]
    · intro hn
      rw [roundStep_ri, hri, nextRoundIndex_ofNat (by omega)]

/-- `COMPRESS` as its steps; `compress` is irreducible. -/
theorem compress_steps (s : State) : compress s = feedForward (roundSteps rounds (seedWork s)) := by
  rw [compress]

/-- `COMPRESS` writes `H` and its scratch registers only (`spec/40_compression_core.md` R139). -/
theorem compress_frame (s : State) :
    compress s = { s with h := (compress s).h, work := (compress s).work, ri := (compress s).ri } := by
  apply State.ext <;> simp

/-- `COMPRESS` computes the pure function of `H` and the block (`spec/40_compression_core.md` R138). -/
theorem compress_h (s : State) : (compress s).h = compressBlock s.h (block s) := by
  have hb : block (seedWork s) = block s := by simp [block]
  have hw : (roundSteps rounds (seedWork s)).work = roundIndices.foldl (blockRound (block s)) s.h := by
    rw [roundSteps_work rounds 0 (by simp [rounds]) _ (fun _ => by simp), hb, seedWork_work,
      roundIndices, List.range_eq_range']
  unfold compress
  rw [feedForward_h, hw, roundSteps_h, seedWork_h, compressBlock]

@[simp] theorem block_compress (s : State) : block (compress s) = block s := by
  simp only [block, compress_buf]

end Sys2Proof.Machine
end

