-- ==== Sys2Proof/Laws/Sequencer.lean ====
section
/-! SUPPORT. What the shared operations around an instruction can do: running one computation after
another, the refusal in phase `SPENT`, and the micro-operations of the sequencer, which all complete. -/

namespace Sys2Proof.Machine

open Sys2Proof.Safety

@[simp] theorem andThen_next (s : State) (k : State → Host.Outcome State Fault Refusal) :
    andThen (.next s) k = k s := rfl

@[simp] theorem andThen_refused (e : Refusal) (k : State → Host.Outcome State Fault Refusal) :
    andThen (.refused e) k = .refused e := rfl

/-- `andThen` ends in a next state exactly when both computations do. -/
theorem andThen_eq_next {r : Host.Outcome State Fault Refusal}
    {k : State → Host.Outcome State Fault Refusal} {t : State} :
    andThen r k = .next t ↔ ∃ u, r = .next u ∧ k u = .next t := by
  cases r <;> simp [andThen]

theorem andThen_assoc (r : Host.Outcome State Fault Refusal)
    (k l : State → Host.Outcome State Fault Refusal) :
    andThen (andThen r k) l = andThen r fun s => andThen (k s) l := by
  cases r <;> rfl

/-- In phase `ACC` the operation is performed. -/
theorem whileAccumulating_acc {s : State} (h : s.phase = .acc) (k : State → State) :
    whileAccumulating s k = .next (k s) := by
  simp [whileAccumulating, h]

/-- In phase `SPENT` it is refused. -/
theorem whileAccumulating_spent {s : State} (h : s.phase = .spent) (k : State → State) :
    whileAccumulating s k = .refused .consumed := by
  simp [whileAccumulating, h]

/-- All that `whileAccumulating` can do when it ends in a next state. -/
theorem whileAccumulating_eq_next {s t : State} {k : State → State} :
    whileAccumulating s k = .next t ↔ s.phase = .acc ∧ k s = t := by
  cases h : s.phase <;> simp [whileAccumulating, h]

/-- What each micro-operation leaves. -/
def runMicroState (m : Micro) (s : State) : State :=
  match m with
  | .store d => storeByte d s
  | .bumpCursor => bumpCursor s
  | .clearCursor => clearCursor s
  | .seed => seedWork s
  | .round => roundStep s
  | .feedfwd => feedForward s
  | .marker => putMarker s
  | .zeroToLength => zeroTail lenFieldPos s
  | .zeroToEnd => zeroTail blockBytes s
  | .zeroHead => zeroHead s
  | .length => putLength s
  | .serialize => serialize s
  | .serializeSpend => markSpent (serialize s)
  | .serializeRenew => reinitialise (serialize s)
  | .reinit => reinitialise s

/-- Every micro-operation completes. -/
theorem runMicro_eq (m : Micro) (s : State) : runMicro m s = .next (runMicroState m s) := by
  cases m <;> first | exact exec_decode_ri s | rfl

theorem finish_append (xs ys : List Micro) (s : State) :
    finish (xs ++ ys) s = andThen (finish xs s) (finish ys) := by
  induction xs generalizing s with
  | nil => rfl
  | cons x xs ih => simp only [List.cons_append, finish, runMicro_eq, andThen_next, ih]

theorem finish_nil (s : State) : finish [] s = .next s := rfl

theorem finish_cons (m : Micro) (ms : List Micro) (s : State) :
    finish (m :: ms) s = finish ms (runMicroState m s) := by
  rw [finish, runMicro_eq, andThen_next]

/-- Finishing micro-operations always ends in a next state. -/
theorem finish_next (ms : List Micro) (s : State) : ∃ t, finish ms s = .next t := by
  induction ms generalizing s with
  | nil => exact ⟨s, rfl⟩
  | cons m ms ih => simpa only [finish, runMicro_eq, andThen_next] using ih _

/-- The round micro-operations are round steps. -/
theorem finish_rounds (n : Nat) (s : State) :
    finish (List.replicate n .round) s = .next (roundSteps n s) := by
  induction n generalizing s with
  | zero => rfl
  | succ n ih => rw [List.replicate_succ, finish, runMicro_eq, andThen_next, ih]; rfl

/-- The micro-operations of a compression are `COMPRESS`. -/
theorem finish_compressPlan (s : State) : finish compressPlan s = .next (compress s) := by
  rw [compressPlan, finish_cons, runMicroState, finish_append, finish_rounds, andThen_next, finish_cons,
    finish_nil, compress_steps, runMicroState]

/-- A micro-operation reads nothing of the plan and the port. -/
theorem runMicroState_comm (m : Micro) (s : State) (b : Bool) (ms : List Micro) (o : Option (BitVec 10)) :
    runMicroState m { s with busy := b, todo := ms, offered := o } =
      { runMicroState m s with busy := b, todo := ms, offered := o } := by
  cases m <;> first | rfl | (apply State.ext <;> simp [runMicroState])

/-- No micro-operation touches the command port, the plan or the operator output. -/
theorem runMicroState_port (m : Micro) (s : State) :
    (runMicroState m s).busy = s.busy ∧ (runMicroState m s).todo = s.todo ∧
    (runMicroState m s).offered = s.offered ∧ (runMicroState m s).inbox = s.inbox ∧
    (runMicroState m s).wire = s.wire := by
  cases m <;> simp [runMicroState]

/-- All that the completion of a micro-operation can do while the unit is busy. -/
theorem advance_cons {s : State} {m : Micro} {rest : List Micro} (h : s.todo = m :: rest) :
    advance s = .next (runMicroState m { s with todo := rest, busy := !rest.isEmpty }) := by
  rw [advance, h]; exact runMicro_eq _ _

/-- The micro-operations that write `DIGEST` and `DVALID`. -/
def writesDigest (m : Micro) : Prop := m = .serialize ∨ m = .serializeSpend ∨ m = .serializeRenew

/-- No other micro-operation touches `DIGEST` or `DVALID`. -/
theorem runMicroState_digest {m : Micro} (h : ¬ writesDigest m) (s : State) :
    (runMicroState m s).digest = s.digest ∧ (runMicroState m s).dvalid = s.dvalid := by
  cases m <;> simp_all [writesDigest, runMicroState]

/-- Where a command may begin, its acceptance begins it and does nothing else. -/
theorem accept_begins {i : Instr} {s : State} (h : s.phase = .acc ∨ i = .new) :
    accept i s = .next (beginPlan (plan i s) s) := by
  by_cases hn : i = .new
  · rw [accept, if_pos hn]
  · rw [accept, if_neg hn, whileAccumulating_acc (h.resolve_right hn)]

/-- Only the last micro-operation of a compression, of the padding or of an append could write `DIGEST`, and
none does. -/
theorem not_writesDigest_compressPlan {m : Micro} (h : m ∈ compressPlan) : ¬ writesDigest m := by
  simp only [compressPlan, List.mem_cons, List.mem_append, List.mem_replicate, List.not_mem_nil, or_false] at h
  rcases h with rfl | ⟨-, rfl⟩ | rfl <;> simp [writesDigest]

theorem not_writesDigest_padPlan {m : Micro} {s : State} (h : m ∈ padPlan s) : ¬ writesDigest m := by
  unfold padPlan at h
  split at h <;> simp only [List.mem_append, List.mem_cons, List.not_mem_nil, or_false] at h
  · rcases h with (rfl | rfl | rfl) | h
    · simp [writesDigest]
    · simp [writesDigest]
    · simp [writesDigest]
    · exact not_writesDigest_compressPlan h
  · rcases h with (((rfl | rfl) | h) | rfl | rfl) | h
    · simp [writesDigest]
    · simp [writesDigest]
    · exact not_writesDigest_compressPlan h
    · simp [writesDigest]
    · simp [writesDigest]
    · exact not_writesDigest_compressPlan h

theorem not_writesDigest_appendPlan {m : Micro} {d : Byte} {s : State} (h : m ∈ appendPlan d s) :
    ¬ writesDigest m := by
  unfold appendPlan at h
  split at h <;> simp only [List.mem_append, List.mem_cons, List.not_mem_nil, or_false] at h
  · rcases h with (rfl | h) | rfl
    · simp [writesDigest]
    · exact not_writesDigest_compressPlan h
    · simp [writesDigest]
  · rcases h with rfl | rfl <;> simp [writesDigest]

end Sys2Proof.Machine
end

