-- ==== Sys2Proof/Laws/Accumulator.lean ====
section
/-! SUPPORT. What appending a byte does to the buffer, the two cases of `appendByte`, runs of `UPDB`, and
that every operation keeps the canonical form of the buffer. -/

namespace Sys2Proof.Machine

open Sys2Proof.Safety

/-- A stored byte is one write at the cursor. -/
theorem storeByte_write (d : Byte) (s : State) : (storeByte d s).buf = s.buf.write s.cur.toNat d := by
  simp [memWrite_one]

/-- The block after a store: the byte at the cursor replaced. -/
theorem block_storeByte (d : Byte) {s : State} (hw : s.buf.wf = true) :
    block (storeByte d s) = (block s).set s.cur.toNat d := by
  apply List.ext_getElem (by simp)
  intro k h1 h2
  rw [block_getElem, List.getElem_set, storeByte_write]
  split
  · next h => subst h; exact Memory.read_write_same hw _ _
  · next h => rw [block_getElem, Memory.read_write_other _ _ (by omega)]

/-- The byte that completes a block triggers a compression (`spec/41_streaming_accumulator.md` R153). -/
theorem appendByte_full (d : Byte) {s : State} (h : s.cur = 63#6) :
    appendByte d s = clearCursor (compress (storeByte d s)) := by
  simp [appendByte, blockFull, h]

/-- Any other byte only moves the cursor on. -/
theorem appendByte_notFull (d : Byte) {s : State} (h : s.cur ≠ 63#6) :
    appendByte d s = bumpCursor (storeByte d s) := by
  simp [appendByte, blockFull, h]

/-- In both cases the buffer gets the byte at the cursor. -/
theorem appendByte_buf (d : Byte) (s : State) : (appendByte d s).buf = s.buf.write s.cur.toNat d := by
  by_cases h : s.cur = 63#6
  · rw [appendByte_full d h, clearCursor_buf, compress_buf, storeByte_write]
  · rw [appendByte_notFull d h, bumpCursor_buf, storeByte_write]

theorem appendByte_wf (d : Byte) {s : State} (hw : s.buf.wf = true) : (appendByte d s).buf.wf = true := by
  rw [appendByte_buf]; exact Memory.wf_write hw _ (by have := s.cur.isLt; simp only [blockBytes]; omega)

/-- The counter goes up by one and the cursor round by one (`spec/10_state.md` R28, R31). -/
theorem appendByte_total (d : Byte) (s : State) : (appendByte d s).total = s.total + 1#64 := by
  by_cases h : s.cur = 63#6
  · rw [appendByte_full d h]; simp
  · rw [appendByte_notFull d h]; simp

theorem appendByte_cur (d : Byte) (s : State) : (appendByte d s).cur = s.cur + 1#6 := by
  by_cases h : s.cur = 63#6
  · rw [appendByte_full d h, h]; rfl
  · rw [appendByte_notFull d h]; simp

@[simp] theorem appendByte_phase (d : Byte) (s : State) : (appendByte d s).phase = s.phase := by
  by_cases h : s.cur = 63#6
  · rw [appendByte_full d h]; simp
  · rw [appendByte_notFull d h]; simp

@[simp] theorem appendByte_dvalid (d : Byte) (s : State) : (appendByte d s).dvalid = s.dvalid := by
  by_cases h : s.cur = 63#6
  · rw [appendByte_full d h]; simp
  · rw [appendByte_notFull d h]; simp

@[simp] theorem appendByte_digest (d : Byte) (s : State) : (appendByte d s).digest = s.digest := by
  by_cases h : s.cur = 63#6
  · rw [appendByte_full d h]; simp
  · rw [appendByte_notFull d h]; simp

theorem appendBytes_append (xs ys : List Byte) (s : State) :
    appendBytes (xs ++ ys) s = andThen (appendBytes xs s) (appendBytes ys) := by
  induction xs generalizing s with
  | nil => rfl
  | cons x xs ih =>
    rw [List.cons_append, appendBytes, appendBytes, andThen_assoc]
    congr 1; funext u; exact ih u

/-- A run of `UPDB` in phase `ACC` completes. -/
theorem appendBytes_next (data : List Byte) {s : State} (h : s.phase = .acc) :
    ∃ t, appendBytes data s = .next t ∧ t.phase = .acc := by
  induction data generalizing s with
  | nil => exact ⟨s, rfl, h⟩
  | cons d ds ih =>
    rw [appendBytes, whileAccumulating_acc h, andThen_next]
    exact ih (by simpa using h)

/-- Blocks are read from the front: only the bytes of the blocks compressed matter. -/
theorem chainBlocks_congr (k : Nat) (h : Quad) {bs cs : List Byte}
    (hp : bs.take (64 * k) = cs.take (64 * k)) : chainBlocks k h bs = chainBlocks k h cs := by
  induction k generalizing h bs cs with
  | zero => rfl
  | succ k ih =>
    have h1 : bs.take 64 = cs.take 64 := by
      have := congrArg (List.take 64) hp
      rwa [List.take_take, List.take_take, Nat.min_eq_left (by omega)] at this
    have h2 := congrArg (List.drop 64) hp
    rw [List.drop_take, List.drop_take, show 64 * (k + 1) - 64 = 64 * k by omega] at h2
    simp only [chainBlocks, blockBytes, h1]
    exact ih _ h2

end Sys2Proof.Machine
end

