-- ==== Sys2Proof/Laws/Finalizer.lean ====
section
/-! SUPPORT. What each step of the padding does to a byte of the buffer, the two cases of `padMessage`,
and the fields the Finalizer leaves alone. -/

namespace Sys2Proof.Machine

open Sys2Proof.Safety

@[simp] theorem bytesOfNat_length (n v : Nat) : (bytesOfNat n v).length = n := by
  induction n generalizing v with
  | zero => rfl
  | succ n ih => simp [bytesOfNat, ih]

theorem bytesOfNat_getElem (n v k : Nat) (h : k < (bytesOfNat n v).length) :
    (bytesOfNat n v)[k] = BitVec.ofNat 8 (v / 256 ^ k) := by
  induction n generalizing v k with
  | zero => simp [bytesOfNat] at h
  | succ n ih =>
    cases k with
    | zero => simp [bytesOfNat]
    | succ k => simp [bytesOfNat, ih, Nat.div_div_eq_div_mul, pow_succ, Nat.mul_comm]

/-- A zero fill zeroes its range and nothing else. -/
theorem read_zeroFill {m : Memory} (hm : m.wf = true) {a n : Nat} (h : a + n ≤ blockBytes) (b : Nat) :
    (zeroFill m a n).read b = if a ≤ b ∧ b < a + n then 0x00#8 else m.read b := by
  split
  · next h1 => exact read_zeroFill_inside hm h1.1 h1.2 h
  · next h1 => exact read_zeroFill_outside m (by omega)

/-- The marker stands at the cursor (`spec/42_finalizer.md` R172). -/
theorem putMarker_read {s : State} (hw : s.buf.wf = true) (a : Nat) :
    (putMarker s).buf.read a = if a = s.cur.toNat then 0x80#8 else s.buf.read a := by
  have := s.cur.isLt
  simp only [putMarker_buf]
  split
  · next h =>
    subst h
    exact read_memWrite_inside hw padMarker (k := 0) Nat.one_pos (by simp only [blockBytes]; omega)
  · next h => exact read_memWrite_outside _ _ (by omega)

theorem putMarker_wf {s : State} (hw : s.buf.wf = true) : (putMarker s).buf.wf = true := by
  have := s.cur.isLt
  exact wf_memWrite hw _ (by simp only [blockBytes]; omega)

theorem zeroTail_wf {s : State} (hw : s.buf.wf = true) {hi : Nat} (h : hi ≤ blockBytes) :
    (zeroTail hi s).buf.wf = true := by
  have hc := s.cur.isLt
  rw [zeroTail_buf]
  exact wf_zeroFill hw (by simp only [blockBytes] at *; omega)

theorem zeroHead_wf {s : State} (hw : s.buf.wf = true) : (zeroHead s).buf.wf = true := by
  rw [zeroHead_buf]; exact wf_zeroFill hw (by decide)

theorem putLength_wf {s : State} (hw : s.buf.wf = true) : (putLength s).buf.wf = true := by
  rw [putLength_buf]; exact wf_memWrite hw _ (by decide)

/-- The length field fills bytes 56 to 63 (`spec/42_finalizer.md` R174). -/
theorem putLength_read {s : State} (hw : s.buf.wf = true) {a : Nat} (ha : a < blockBytes) :
    (putLength s).buf.read a =
      if a < lenFieldPos then s.buf.read a
      else BitVec.ofNat 8 (bitLength s.total / 256 ^ (a - lenFieldPos)) := by
  simp only [putLength_buf]
  split
  · next h => exact read_memWrite_outside _ _ (by omega)
  · next h =>
    have hk : a - lenFieldPos < lenFieldBytes := by simp only [lenFieldPos, lenFieldBytes, blockBytes] at *; omega
    have := read_memWrite_inside hw (a := lenFieldPos) (bitLength s.total) hk (by decide)
    rwa [show lenFieldPos + (a - lenFieldPos) = a by omega] at this

theorem fitsOneBlock_iff (s : State) : fitsOneBlock s = true ↔ s.cur.toNat ≤ 55 := by
  rw [fitsOneBlock, decide_eq_true_iff, padSplit]

theorem padMessage_one {s : State} (h : s.cur.toNat ≤ 55) : padMessage s = padOneBlock (putMarker s) := by
  rw [padMessage, if_pos ((fitsOneBlock_iff s).mpr h)]

theorem padMessage_two {s : State} (h : 56 ≤ s.cur.toNat) : padMessage s = padTwoBlocks (putMarker s) := by
  rw [padMessage, if_neg (by rw [fitsOneBlock_iff]; omega)]

/-- The micro-operations of the padding are `PAD`. -/
theorem finish_padPlan (s : State) : finish (padPlan s) s = .next (padMessage s) := by
  rcases Nat.lt_or_ge s.cur.toNat 56 with h | h
  · rw [padPlan, if_pos ((fitsOneBlock_iff s).mpr (by omega)), padMessage_one (by omega), padOneBlock, finish_append,
      finish_cons, finish_cons, finish_cons, finish_nil, andThen_next, finish_compressPlan]
    simp only [runMicroState]
  · rw [padPlan, if_neg (by rw [fitsOneBlock_iff]; omega), padMessage_two h, padTwoBlocks, List.append_assoc,
      List.append_assoc, finish_append, finish_cons, finish_cons, finish_nil, andThen_next, finish_append,
      finish_compressPlan, andThen_next, finish_append, finish_cons, finish_cons, finish_nil, andThen_next,
      finish_compressPlan]
    simp only [runMicroState]

/-- `PAD` writes `H`, the scratch registers and the buffer only (`spec/42_finalizer.md` R171). -/
theorem padMessage_frame (s : State) :
    padMessage s = { s with h := (padMessage s).h, work := (padMessage s).work, ri := (padMessage s).ri,
                            buf := (padMessage s).buf } := by
  rcases Nat.lt_or_ge s.cur.toNat 56 with h | h
  · rw [padMessage_one (by omega)]; rw [padOneBlock]; apply State.ext <;> simp
  · rw [padMessage_two h]; rw [padTwoBlocks]; apply State.ext <;> simp

@[simp] theorem padMessage_cur (s : State) : (padMessage s).cur = s.cur := by rw [padMessage_frame]
@[simp] theorem padMessage_total (s : State) : (padMessage s).total = s.total := by rw [padMessage_frame]
@[simp] theorem padMessage_phase (s : State) : (padMessage s).phase = s.phase := by rw [padMessage_frame]
@[simp] theorem padMessage_dvalid (s : State) : (padMessage s).dvalid = s.dvalid := by rw [padMessage_frame]
@[simp] theorem padMessage_busy (s : State) : (padMessage s).busy = s.busy := by rw [padMessage_frame]
@[simp] theorem padMessage_digest (s : State) : (padMessage s).digest = s.digest := by rw [padMessage_frame]
@[simp] theorem padMessage_todo (s : State) : (padMessage s).todo = s.todo := by rw [padMessage_frame]
@[simp] theorem padMessage_offered (s : State) : (padMessage s).offered = s.offered := by rw [padMessage_frame]
@[simp] theorem padMessage_inbox (s : State) : (padMessage s).inbox = s.inbox := by rw [padMessage_frame]
@[simp] theorem padMessage_wire (s : State) : (padMessage s).wire = s.wire := by rw [padMessage_frame]

/-- In both cases the last write of the padding is the length field of the whole message. -/
theorem padMessage_buf {s : State} (hw : s.buf.wf = true) :
    ∃ u : State, u.buf.wf = true ∧ u.total = s.total ∧ (padMessage s).buf = (putLength u).buf := by
  have hlt := s.cur.isLt
  have h1 := putMarker_wf hw
  rcases Nat.lt_or_ge s.cur.toNat 56 with h | h
  · rw [padMessage_one (by omega), padOneBlock, compress_buf]
    exact ⟨_, zeroTail_wf h1 (by decide), by simp, rfl⟩
  · rw [padMessage_two h, padTwoBlocks, compress_buf]
    refine ⟨_, zeroHead_wf ?_, by simp, rfl⟩
    rw [compress_buf]
    exact zeroTail_wf h1 (Nat.le_refl _)

theorem padMessage_wf {s : State} (hw : s.buf.wf = true) : (padMessage s).buf.wf = true := by
  obtain ⟨u, hu, -, hb⟩ := padMessage_buf hw
  rw [hb]; exact putLength_wf hu

/-- Every micro-operation keeps the canonical form of the buffer. -/
theorem runMicroState_wf (m : Micro) {s : State} (hw : s.buf.wf = true) : (runMicroState m s).buf.wf = true := by
  cases m with
  | store d =>
    rw [runMicroState, storeByte_write]
    exact Memory.wf_write hw _ (by have := s.cur.isLt; simp only [blockBytes]; omega)
  | marker => exact putMarker_wf hw
  | zeroToLength => exact zeroTail_wf hw (by decide)
  | zeroToEnd => exact zeroTail_wf hw (by decide)
  | zeroHead => exact zeroHead_wf hw
  | length => exact putLength_wf hw
  | _ => exact hw

@[simp] theorem finalise_phase (s : State) : (finalise s).phase = s.phase := by simp [finalise]
@[simp] theorem finalise_digest (s : State) : (finalise s).digest = digestOf (padMessage s).h := by simp [finalise]
@[simp] theorem finalise_dvalid (s : State) : (finalise s).dvalid = true := by simp [finalise]
@[simp] theorem finalise_buf (s : State) : (finalise s).buf = (padMessage s).buf := by simp [finalise]
@[simp] theorem finalise_busy (s : State) : (finalise s).busy = s.busy := by simp [finalise]
@[simp] theorem finalise_todo (s : State) : (finalise s).todo = s.todo := by simp [finalise]
@[simp] theorem finalise_offered (s : State) : (finalise s).offered = s.offered := by simp [finalise]
@[simp] theorem finalise_inbox (s : State) : (finalise s).inbox = s.inbox := by simp [finalise]
@[simp] theorem finalise_wire (s : State) : (finalise s).wire = s.wire := by simp [finalise]

/-- The buffer after the marker and the zero fill up to `hi`: the message tail, `0x80`, zero bytes. -/
theorem zeroTail_getElem {s : State} (hw : s.buf.wf = true) {hi k : Nat} (hk : k < hi) (hhi : hi ≤ 64)
    (hc : s.cur.toNat < hi) (rest : List Byte)
    (hb : k < ((block s).take s.cur.toNat ++ [0x80#8]
      ++ List.replicate (hi - 1 - s.cur.toNat) 0x00#8 ++ rest).length) :
    ((block s).take s.cur.toNat ++ [0x80#8] ++ List.replicate (hi - 1 - s.cur.toNat) 0x00#8 ++ rest)[k]
      = (zeroTail hi (putMarker s)).buf.read k := by
  have hl : ((block s).take s.cur.toNat).length = s.cur.toNat := by simp [blockBytes]; omega
  rw [zeroTail_buf, putMarker_cur, read_zeroFill (putMarker_wf hw) (by simp only [blockBytes]; omega),
    putMarker_read hw, List.getElem_append_left (by simp [hl]; omega)]
  rcases lt_trichotomy k s.cur.toNat with h | h | h
  · rw [if_neg (by omega), if_neg (by omega), List.getElem_append_left (by simp [hl]; omega),
      List.getElem_append_left (by omega), List.getElem_take, block_getElem]
  · rw [if_neg (by omega), if_pos h, List.getElem_append_left (by simp [hl]; omega),
      List.getElem_append_right (by omega)]
    simp
  · rw [if_pos (by omega), List.getElem_append_right (by simp [hl]; omega)]
    simp

end Sys2Proof.Machine
end

