-- ==== Sys2Proof/Laws/Exec.lean ====
section
/-! SUPPORT. One equation per arm of `exec`: what the instruction does, in the shared operations. -/

namespace Sys2Proof.Machine

theorem exec_new (s : State) : exec .new s = .next (reinitialise s) := (rfl)
theorem exec_updb (d : Byte) (s : State) : exec (.updb d) s = whileAccumulating s (appendByte d) := (rfl)
theorem exec_fin (s : State) : exec .fin s = whileAccumulating s fun s => markSpent (finalise s) := (rfl)
theorem exec_finr (s : State) : exec .finr s = whileAccumulating s fun s => reinitialise (finalise s) := (rfl)
theorem exec_seed (s : State) : exec .seed s = .next (seedWork s) := (rfl)
theorem exec_feedfwd (s : State) : exec .feedfwd s = .next (feedForward s) := (rfl)
theorem exec_compress (s : State) : exec .compress s = .next (compress s) := (rfl)
theorem exec_pad (s : State) : exec .pad s = .next (padMessage s) := (rfl)
theorem exec_serialize (s : State) : exec .serialize s = .next (serialize s) := (rfl)
theorem exec_update (data : List Byte) (s : State) : exec (.update data) s = appendBytes data s := (rfl)
theorem exec_hash (data : List Byte) (s : State) : exec (.hash data) s = andThen (appendBytes data (reinitialise s)) (exec .fin) := (rfl)
theorem exec_rndF (j : BitVec 4) (s : State) :
    exec (.rndF j) s =
      .next (roundWith roundF (indexF (roundIndex 0b00#2 j)) (roundIndex 0b00#2 j) s) := (rfl)
theorem exec_rndG (j : BitVec 4) (s : State) :
    exec (.rndG j) s =
      .next (roundWith roundG (indexG (roundIndex 0b01#2 j)) (roundIndex 0b01#2 j) s) := (rfl)
theorem exec_rndH (j : BitVec 4) (s : State) :
    exec (.rndH j) s =
      .next (roundWith roundH (indexH (roundIndex 0b10#2 j)) (roundIndex 0b10#2 j) s) := (rfl)
theorem exec_rndI (j : BitVec 4) (s : State) :
    exec (.rndI j) s =
      .next (roundWith roundI (indexI (roundIndex 0b11#2 j)) (roundIndex 0b11#2 j) s) := (rfl)
theorem exec_add32 (x y : Word) (s : State) : exec (.add32 x y) s = .next (driveWire (add32 x y) s) := (rfl)
theorem exec_rotl32 (x : Word) (n : Nat) (s : State) : exec (.rotl32 x n) s = .next (driveWire (rotl32 x n) s) := (rfl)
theorem exec_not32 (x : Word) (s : State) : exec (.not32 x) s = .next (driveWire (not32 x) s) := (rfl)
theorem exec_and32 (x y : Word) (s : State) : exec (.and32 x y) s = .next (driveWire (and32 x y) s) := (rfl)
theorem exec_or32 (x y : Word) (s : State) : exec (.or32 x y) s = .next (driveWire (or32 x y) s) := (rfl)
theorem exec_xor32 (x y : Word) (s : State) : exec (.xor32 x y) s = .next (driveWire (xor32 x y) s) := (rfl)
theorem exec_fnF (b c d : Word) (s : State) : exec (.fnF b c d) s = .next (driveWire (roundF b c d) s) := (rfl)
theorem exec_fnG (b c d : Word) (s : State) : exec (.fnG b c d) s = .next (driveWire (roundG b c d) s) := (rfl)
theorem exec_fnH (b c d : Word) (s : State) : exec (.fnH b c d) s = .next (driveWire (roundH b c d) s) := (rfl)
theorem exec_fnI (b c d : Word) (s : State) : exec (.fnI b c d) s = .next (driveWire (roundI b c d) s) := (rfl)

/-- `FIN` in phase `ACC`. -/
theorem exec_fin_acc {s : State} (h : s.phase = .acc) : exec .fin s = .next (markSpent (finalise s)) := by
  rw [exec_fin, whileAccumulating_acc h]

/-- `FINR` in phase `ACC`. -/
theorem exec_finr_acc {s : State} (h : s.phase = .acc) : exec .finr s = .next (reinitialise (finalise s)) := by
  rw [exec_finr, whileAccumulating_acc h]

/-- `UPDB` in phase `ACC`. -/
theorem exec_updb_acc (d : Byte) {s : State} (h : s.phase = .acc) : exec (.updb d) s = .next (appendByte d s) := by
  rw [exec_updb, whileAccumulating_acc h]

end Sys2Proof.Machine
end

