-- ==== Sys2Proof/Laws/PerInstr.lean ====
section
/-! SUPPORT. A statement about every instruction as syntax, one lemma per constructor: the words of an
instruction are canonical, so encoding what they decode to gives the same words. -/

namespace Sys2Proof.Laws.Canonical

/-- Encoding what each word of the instruction decodes to gives the words back (`spec/30_encoding.md` R96,
R102: the canonical words). -/
def Statement (i : Instr) : Prop :=
  ((encode i).map decode).flatMap encode = encode i

theorem decode_updb : ∀ d : Byte, decode (.cmd (0b01#2 ++ d)) = .updb d := by decide +kernel

theorem updbs (data : List Byte) :
    ((data.map fun d => Code.cmd (0b01#2 ++ d)).map decode).flatMap encode =
      data.map fun d => Code.cmd (0b01#2 ++ d) := by
  induction data with
  | nil => rfl
  | cons d ds ih =>
    rw [List.map_cons, List.map_cons, List.flatMap_cons, ih, decode_updb]
    rfl

theorem new : Statement .new := by
  unfold Statement; decide

theorem updb (d : Byte) : Statement (.updb d) := by
  exact updbs [d]

theorem fin : Statement .fin := by
  unfold Statement; decide

theorem finr : Statement .finr := by
  unfold Statement; decide

theorem rndF (j : BitVec 4) : Statement (.rndF j) := by
  unfold Statement; revert j; decide

theorem rndG (j : BitVec 4) : Statement (.rndG j) := by
  unfold Statement; revert j; decide

theorem rndH (j : BitVec 4) : Statement (.rndH j) := by
  unfold Statement; revert j; decide

theorem rndI (j : BitVec 4) : Statement (.rndI j) := by
  unfold Statement; revert j; decide

theorem seed : Statement .seed := by
  rfl

theorem feedfwd : Statement .feedfwd := by
  rfl

theorem compress : Statement .compress := by
  rfl

theorem pad : Statement .pad := by
  rfl

theorem serialize : Statement .serialize := by
  rfl

theorem add32 (x y : Word) : Statement (.add32 x y) := by
  rfl

theorem rotl32 (x : Word) (n : Nat) : Statement (.rotl32 x n) := by
  rfl

theorem not32 (x : Word) : Statement (.not32 x) := by
  rfl

theorem and32 (x y : Word) : Statement (.and32 x y) := by
  rfl

theorem or32 (x y : Word) : Statement (.or32 x y) := by
  rfl

theorem xor32 (x y : Word) : Statement (.xor32 x y) := by
  rfl

theorem fnF (b c d : Word) : Statement (.fnF b c d) := by
  rfl

theorem fnG (b c d : Word) : Statement (.fnG b c d) := by
  rfl

theorem fnH (b c d : Word) : Statement (.fnH b c d) := by
  rfl

theorem fnI (b c d : Word) : Statement (.fnI b c d) := by
  rfl

theorem update (data : List Byte) : Statement (.update data) := by
  exact updbs data

theorem hash (data : List Byte) : Statement (.hash data) := by
  unfold Statement
  rw [encode, List.map_append, List.flatMap_append, List.map_cons, List.flatMap_cons, updbs]
  rfl

end Sys2Proof.Laws.Canonical
end

