-- ==== Sys2Proof/Laws/Port.lean ====
section
/-! SUPPORT. What the command port adds around an instruction: no instruction reads or writes what the
outside presents, so a stream of command words runs as its instructions one after another. -/

namespace Sys2Proof.Machine

open Sys2Proof.Safety

/-- The state with another list of events to come. -/
def setInbox (l : List Event) (s : State) : State := { s with inbox := l }

@[simp] theorem setInbox_h (l : List Event) (s : State) : (setInbox l s).h = s.h := (rfl)
@[simp] theorem setInbox_work (l : List Event) (s : State) : (setInbox l s).work = s.work := (rfl)
@[simp] theorem setInbox_ri (l : List Event) (s : State) : (setInbox l s).ri = s.ri := (rfl)
@[simp] theorem setInbox_cur (l : List Event) (s : State) : (setInbox l s).cur = s.cur := (rfl)
@[simp] theorem setInbox_total (l : List Event) (s : State) : (setInbox l s).total = s.total := (rfl)
@[simp] theorem setInbox_phase (l : List Event) (s : State) : (setInbox l s).phase = s.phase := (rfl)
@[simp] theorem setInbox_dvalid (l : List Event) (s : State) : (setInbox l s).dvalid = s.dvalid := (rfl)
@[simp] theorem setInbox_busy (l : List Event) (s : State) : (setInbox l s).busy = s.busy := (rfl)
@[simp] theorem setInbox_digest (l : List Event) (s : State) : (setInbox l s).digest = s.digest := (rfl)
@[simp] theorem setInbox_buf (l : List Event) (s : State) : (setInbox l s).buf = s.buf := (rfl)
@[simp] theorem setInbox_todo (l : List Event) (s : State) : (setInbox l s).todo = s.todo := (rfl)
@[simp] theorem setInbox_offered (l : List Event) (s : State) : (setInbox l s).offered = s.offered := (rfl)
@[simp] theorem setInbox_wire (l : List Event) (s : State) : (setInbox l s).wire = s.wire := (rfl)
@[simp] theorem setInbox_inbox (l : List Event) (s : State) : (setInbox l s).inbox = l := (rfl)

/-- An outcome with the next state mapped. -/
def mapNext (f : State → State) (r : Host.Outcome State Fault Refusal) : Host.Outcome State Fault Refusal :=
  andThen r fun s => .next (f s)

@[simp] theorem mapNext_next (f : State → State) (s : State) : mapNext f (.next s) = .next (f s) := rfl

@[simp] theorem mapNext_refused (f : State → State) (e : Refusal) : mapNext f (.refused e) = .refused e := rfl

theorem andThen_mapNext (f : State → State) (r : Host.Outcome State Fault Refusal)
    {k l : State → Host.Outcome State Fault Refusal} (h : ∀ s, l (f s) = mapNext f (k s)) :
    andThen (mapNext f r) l = mapNext f (andThen r k) := by
  cases r <;> first | exact h _ | rfl

theorem roundSteps_setInbox (n : Nat) (l : List Event) (s : State) :
    roundSteps n (setInbox l s) = setInbox l (roundSteps n s) := by
  induction n generalizing s with
  | zero => rfl
  | succ n ih => exact ih (roundStep s)

@[simp] theorem compress_setInbox (l : List Event) (s : State) :
    compress (setInbox l s) = setInbox l (compress s) := by
  rw [compress_steps, compress_steps, show seedWork (setInbox l s) = setInbox l (seedWork s) from rfl,
    roundSteps_setInbox]
  exact (show ∀ u, feedForward (setInbox l u) = setInbox l (feedForward u) from fun _ => rfl) _

@[simp] theorem zeroHead_setInbox (l : List Event) (s : State) :
    zeroHead (setInbox l s) = setInbox l (zeroHead s) := by
  apply State.ext <;> simp

theorem appendByte_setInbox (d : Byte) (l : List Event) (s : State) :
    appendByte d (setInbox l s) = setInbox l (appendByte d s) := by
  by_cases h : s.cur = 63#6
  · rw [appendByte_full d h, appendByte_full d (show (setInbox l s).cur = 63#6 from h),
      show storeByte d (setInbox l s) = setInbox l (storeByte d s) from rfl, compress_setInbox]
    exact (show ∀ u, clearCursor (setInbox l u) = setInbox l (clearCursor u) from fun _ => rfl) _
  · rw [appendByte_notFull d h, appendByte_notFull d (show (setInbox l s).cur ≠ 63#6 from h)]
    rfl

theorem padMessage_setInbox (l : List Event) (s : State) :
    padMessage (setInbox l s) = setInbox l (padMessage s) := by
  rcases Nat.lt_or_ge s.cur.toNat 56 with h | h
  · rw [padMessage_one (s := setInbox l s) (Nat.le_of_lt_succ h), padMessage_one (s := s) (by omega), padOneBlock,
      padOneBlock, show putLength (zeroTail lenFieldPos (putMarker (setInbox l s))) =
      setInbox l (putLength (zeroTail lenFieldPos (putMarker s))) from rfl, compress_setInbox]
  · rw [padMessage_two (s := setInbox l s) h, padMessage_two (s := s) h, padTwoBlocks, padTwoBlocks,
      show zeroTail blockBytes (putMarker (setInbox l s)) = setInbox l (zeroTail blockBytes (putMarker s)) from rfl,
      compress_setInbox, zeroHead_setInbox,
      show ∀ u, putLength (setInbox l u) = setInbox l (putLength u) from fun _ => rfl, compress_setInbox]

theorem whileAccumulating_setInbox (l : List Event) (s : State) {k : State → State}
    (h : k (setInbox l s) = setInbox l (k s)) :
    whileAccumulating (setInbox l s) k = mapNext (setInbox l) (whileAccumulating s k) := by
  cases hp : s.phase with
  | acc =>
    rw [whileAccumulating_acc hp, whileAccumulating_acc (show (setInbox l s).phase = .acc from hp), h, mapNext_next]
  | spent =>
    rw [whileAccumulating_spent hp, whileAccumulating_spent (show (setInbox l s).phase = .spent from hp),
      mapNext_refused]

theorem appendBytes_setInbox (data : List Byte) (l : List Event) (s : State) :
    appendBytes data (setInbox l s) = mapNext (setInbox l) (appendBytes data s) := by
  induction data generalizing s with
  | nil => rfl
  | cons d ds ih =>
    rw [appendBytes, appendBytes, whileAccumulating_setInbox l s (appendByte_setInbox d l s)]
    exact andThen_mapNext _ _ ih

theorem finalise_setInbox (l : List Event) (s : State) : finalise (setInbox l s) = setInbox l (finalise s) := by
  rw [finalise, finalise, padMessage_setInbox]; rfl

/-- No instruction reads the events to come, and none changes them. -/
theorem exec_setInbox (i : Instr) (l : List Event) (s : State) :
    exec i (setInbox l s) = mapNext (setInbox l) (exec i s) := by
  have hfin : ∀ u, exec .fin (setInbox l u) = mapNext (setInbox l) (exec .fin u) := fun u => by
    rw [exec_fin, exec_fin]
    exact whileAccumulating_setInbox l u (by rw [finalise_setInbox]; rfl)
  cases i with
  | updb d => rw [exec_updb, exec_updb]; exact whileAccumulating_setInbox l s (appendByte_setInbox d l s)
  | fin => exact hfin s
  | finr =>
    rw [exec_finr, exec_finr]
    exact whileAccumulating_setInbox l s (by rw [finalise_setInbox]; rfl)
  | compress => rw [exec_compress, exec_compress, compress_setInbox]; rfl
  | pad => rw [exec_pad, exec_pad, padMessage_setInbox]; rfl
  | update data => rw [exec_update, exec_update, appendBytes_setInbox]
  | hash data =>
    rw [exec_hash, exec_hash, show reinitialise (setInbox l s) = setInbox l (reinitialise s) from rfl,
      appendBytes_setInbox]
    exact andThen_mapNext _ _ hfin
  | _ => rfl

theorem appendByte_port (d : Byte) (s : State) :
    (appendByte d s).busy = s.busy ∧ (appendByte d s).todo = s.todo ∧ (appendByte d s).offered = s.offered ∧
    (appendByte d s).inbox = s.inbox ∧ (appendByte d s).wire = s.wire := by
  by_cases h : s.cur = 63#6
  · rw [appendByte_full d h]; simp
  · rw [appendByte_notFull d h]; simp

theorem appendBytes_port {data : List Byte} {s t : State} (h : appendBytes data s = .next t) :
    t.busy = s.busy ∧ t.todo = s.todo ∧ t.offered = s.offered ∧ t.inbox = s.inbox ∧ t.wire = s.wire := by
  induction data generalizing s with
  | nil => rw [show t = s by injection h with h; exact h.symm]; simp
  | cons d ds ih =>
    obtain ⟨u, hu, ht⟩ := andThen_eq_next.mp h
    obtain ⟨-, rfl⟩ := whileAccumulating_eq_next.mp hu
    obtain ⟨h1, h2, h3, h4, h5⟩ := appendByte_port d s
    rw [← h1, ← h2, ← h3, ← h4, ← h5]
    exact ih ht

/-- No instruction touches `BUSY`, the plan of the sequencer or the command port. -/
theorem exec_port {i : Instr} {s t : State} (h : exec i s = .next t) :
    t.busy = s.busy ∧ t.todo = s.todo ∧ t.offered = s.offered ∧ t.inbox = s.inbox := by
  have hfin : ∀ {u : State}, exec .fin u = .next t →
      t.busy = u.busy ∧ t.todo = u.todo ∧ t.offered = u.offered ∧ t.inbox = u.inbox := fun {u} hu => by
    rw [exec_fin] at hu
    obtain ⟨-, rfl⟩ := whileAccumulating_eq_next.mp hu
    simp
  cases i with
  | updb d =>
    obtain ⟨-, rfl⟩ := whileAccumulating_eq_next.mp h
    obtain ⟨h1, h2, h3, h4, -⟩ := appendByte_port d s
    exact ⟨h1, h2, h3, h4⟩
  | fin => exact hfin h
  | finr =>
    rw [exec_finr] at h
    obtain ⟨-, rfl⟩ := whileAccumulating_eq_next.mp h
    simp
  | update data =>
    obtain ⟨h1, h2, h3, h4, -⟩ := appendBytes_port h
    exact ⟨h1, h2, h3, h4⟩
  | hash data =>
    obtain ⟨u, hu, ht⟩ := andThen_eq_next.mp h
    obtain ⟨h1, h2, h3, h4, -⟩ := appendBytes_port hu
    obtain ⟨g1, g2, g3, g4⟩ := hfin ht
    exact ⟨g1.trans h1, g2.trans h2, g3.trans h3, g4.trans h4⟩
  | pad =>
    rw [exec_pad] at h
    injection h with h
    subst h; simp
  | compress =>
    rw [exec_compress] at h
    injection h with h
    subst h; simp
  | _ => injection h with h; subst h; exact ⟨rfl, rfl, rfl, rfl⟩

/-- A command word offered to a ready unit runs as its instruction, and the word leaves the port. -/
theorem step_command {s : State} {w : BitVec 10} {later : List Event} (hb : s.busy = false)
    (ho : s.offered = none ∨ s.offered = some w) (hi : s.inbox = .command w :: later) :
    step s = exec (decode (.cmd w)) { s with inbox := later, offered := none } := by
  have hh : holdBroken true w s = false := by rcases ho with ho | ho <;> simp [holdBroken, ho]
  simp [step, hi, onCommand, hh, hb]

/-- A command word decodes to one of the four commands. -/
theorem decodeCmd_cases (w : BitVec 10) :
    decodeCmd w = .new ∨ (∃ d, decodeCmd w = .updb d) ∨ decodeCmd w = .fin ∨ decodeCmd w = .finr := by
  unfold decodeCmd; split_ifs <;> simp

/-- The micro-operations of an accepted command do what the command does. -/
theorem finish_plan (w : BitVec 10) {s : State} (h : s.phase = .acc ∨ decodeCmd w = .new) :
    finish (plan (decodeCmd w) s) s = exec (decodeCmd w) s := by
  by_cases hn : decodeCmd w = .new
  · rw [hn, plan, finish_cons, finish_nil, exec_new]; simp only [runMicroState]
  have hp : s.phase = .acc := h.resolve_right hn
  rcases decodeCmd_cases w with h | ⟨d, h⟩ | h | h
  · exact absurd h hn
  · rw [h, exec_updb_acc _ hp, plan, appendPlan]
    by_cases hc : s.cur = 63#6
    · rw [appendByte_full d hc, if_pos (by simp [blockFull, hc]), finish_append, finish_append, finish_cons,
        finish_nil, andThen_next, finish_compressPlan, andThen_next, finish_cons, finish_nil]
      simp only [runMicroState]
    · rw [appendByte_notFull d hc, if_neg (by simp [blockFull, hc]), finish_cons, finish_cons, finish_nil]
      simp only [runMicroState]
  · rw [h, exec_fin_acc hp, plan, finish_append, finish_padPlan, andThen_next, finish_cons, finish_nil]
    simp only [runMicroState, finalise]
  · rw [h, exec_finr_acc hp, plan, finish_append, finish_padPlan, andThen_next, finish_cons, finish_nil]
    simp only [runMicroState, finalise]

/-- The plan of a command depends on the state through the cursor only. -/
theorem plan_congr (w : BitVec 10) {s u : State} (h : u.cur = s.cur) :
    plan (decodeCmd w) u = plan (decodeCmd w) s := by
  rcases decodeCmd_cases w with hd | ⟨d, hd⟩ | hd | hd <;> rw [hd] <;>
    simp [plan, appendPlan, padPlan, blockFull, fitsOneBlock, h]

/-- A command has a last micro-operation, and only that one may write `DIGEST` and `DVALID`. -/
theorem plan_snoc (w : BitVec 10) (s : State) :
    ∃ ms m, plan (decodeCmd w) s = ms ++ [m] ∧ ∀ m' ∈ ms, ¬ writesDigest m' := by
  rcases decodeCmd_cases w with hd | ⟨d, hd⟩ | hd | hd <;> rw [hd]
  · exact ⟨[], .reinit, rfl, by simp⟩
  · have hne : appendPlan d s ≠ [] := by unfold appendPlan; split <;> simp
    exact ⟨(appendPlan d s).dropLast, _, (List.dropLast_append_getLast hne).symm, fun m' h' =>
      not_writesDigest_appendPlan (List.dropLast_subset _ h')⟩
  · exact ⟨padPlan s, .serializeSpend, rfl, fun _ => not_writesDigest_padPlan⟩
  · exact ⟨padPlan s, .serializeRenew, rfl, fun _ => not_writesDigest_padPlan⟩

/-- An edge at which a ready unit is offered a command accepts it. -/
theorem step_offer {s : State} {e : Edge} {later : List Event} (h : AtBoundary s) (hr : e.rst = false)
    (hv : e.valid = true) :
    step { s with inbox := .edge e :: later } = accept (decode (.cmd e.cmd)) { s with inbox := later } := by
  obtain ⟨hb, -, ho⟩ := h
  simp [step, onEdge, hr, hv, holdBroken, ho, hb]

/-- All that an edge can do to a busy unit whose host keeps to the handshake. -/
theorem step_busy_edge {s : State} {e : Edge} {later : List Event} (hb : s.busy = true) (hr : e.rst = false)
    (ho : s.offered = none ∨ (e.valid = true ∧ s.offered = some e.cmd)) :
    step { s with inbox := .edge e :: later } =
      if e.advance then advance { s with inbox := later, offered := if e.valid then some e.cmd else none }
      else .next { s with inbox := later, offered := if e.valid then some e.cmd else none } := by
  have hh : ∀ u : State, u.offered = s.offered → holdBroken e.valid e.cmd u = false := fun u hu => by
    rcases ho with ho | ⟨hv, ho⟩ <;> simp [holdBroken, *]
  simp [step, onEdge, hr, hh, hb]

/-- A stream of command words, one a step from a command boundary, runs as its instructions one after
another. -/
theorem run_commands (ws : List (BitVec 10)) {s : State} (h : AtBoundary s) :
    runSteps ws.length (withCommands ws s) = execAll (ws.map decodeCmd) { s with inbox := [] } := by
  induction ws generalizing s with
  | nil => rfl
  | cons w ws ih =>
    obtain ⟨hb, ht, ho⟩ := h
    rw [List.length_cons, runSteps, List.map_cons, execAll,
      step_command (s := withCommands (w :: ws) s) hb (.inl ho) rfl]
    have hs : { withCommands (w :: ws) s with inbox := ws.map .command, offered := none } =
        setInbox (ws.map .command) { s with inbox := [] } := by
      cases s; cases ho; rfl
    rw [hs, exec_setInbox]
    show _ = andThen (exec (decode (.cmd w)) _) _
    cases hr : exec (decode (.cmd w)) { s with inbox := [] } with
    | next t =>
      obtain ⟨h1, h2, h3, h4⟩ := exec_port hr
      have := ih (s := t) ⟨h1.trans hb, h2.trans ht, h3.trans ho⟩
      rw [show ({ t with inbox := [] } : State) = t by cases t; cases h4; rfl] at this
      exact this
    | fault f => rfl
    | refused e => rfl

end Sys2Proof.Machine
end

