-- ==== Sys2Proof/Tests/Slice0.lean ====
section
/-! SUPPORT. Tests, few and small: expected values are those of `spec/` (the rule's own example, or
`spec/95_test_vectors.md`), never the model's. After them, for every statement with hypotheses, a concrete
state and operands that meet them all. -/

namespace Sys2Proof.Tests

open Sys2Proof.Machine Sys2Proof.Safety

/-- The outcome is a next state that passes the check. -/
def nextIs (r : Host.Outcome State Fault Refusal) (p : State → Bool) : Bool :=
  match r with
  | .next s => p s
  | .fault _ => false
  | .refused _ => false

/-- The outcome is this refusal. -/
def refusedAs (r : Host.Outcome State Fault Refusal) (e : Refusal) : Bool :=
  match r with
  | .next _ => false
  | .fault _ => false
  | .refused e' => e' == e

/-- A buffer holding the bytes from address 0 on. -/
def bufOf (bs : List Byte) : Memory := (bs.foldl (fun (m, a) b => (Memory.write m a b, a + 1)) (([], 0) : Memory × Nat)).1

/-- The block of the empty message, trace T1. -/
def blockT1 : Memory := bufOf [0x80#8]

/-- A state inside the compression of T1: the working registers and the round index. -/
def inT1 (w : Quad) (i : BitVec 6) : State := { State.reset with work := w, ri := i, buf := blockT1 }

/-- A consumed unit. -/
def spentUnit : State := { State.reset with phase := .spent, dvalid := true }

/-- `n` message bytes `0x61` accumulated, none of them completing a block. -/
def partialA (n : Nat) : State :=
  { State.reset with cur := BitVec.ofNat 6 n, total := BitVec.ofNat 64 n, buf := bufOf (List.replicate n 0x61#8) }

/-- A unit in the middle of a command. -/
def busyUnit : State := { State.reset with busy := true, todo := [.round, .feedfwd] }

/-! WellFormed: the amounts 0 and 32 are outside R111's range. -/

theorem test_wf_rotl_0_refused : (Instr.rotl32 0x1#32 0).wellFormed = false := by decide
theorem test_wf_rotl_32_refused : (Instr.rotl32 0x1#32 32).wellFormed = false := by decide
theorem test_wf_rotl_bounds : (Instr.rotl32 0x1#32 1).wellFormed = true ∧ (Instr.rotl32 0x1#32 31).wellFormed = true := by
  decide

/-! Decoding: words written out bit by bit from R84, R86, R88, R90. -/

theorem test_decode_new : decode (.cmd 0b0000000000#10) = .new := by decide
theorem test_decode_updb : decode (.cmd 0b0101100001#10) = .updb 0x61#8 := by decide
theorem test_decode_fin : decode (.cmd 0b1000000000#10) = .fin := by decide
theorem test_decode_finr : decode (.cmd 0b1100000000#10) = .finr := by decide
theorem test_decode_ignored_data : decode (.cmd 0b1011111111#10) = .fin ∧ decode (.cmd 0b0010101010#10) = .new := by decide
theorem test_decode_rndF : decode (.rnd 0b001111#6) = .rndF 15#4 := by decide
theorem test_decode_rndG : decode (.rnd 0b010001#6) = .rndG 1#4 := by decide
theorem test_decode_rndH : decode (.rnd 0b100110#6) = .rndH 6#4 := by decide
theorem test_decode_rndI : decode (.rnd 0b111000#6) = .rndI 8#4 := by decide

/-- The containers, the model's choice (log 2): the decoder is total and rejects by name. -/
theorem test_decode_bytes :
    decodeBytes [0x61#8, 0x01#8] = .ok (.updb 0x61#8) ∧ decodeBytes [0x3f#8] = .ok (.rndI 15#4) ∧
    decodeBytes [0x61#8, 0x04#8] = .error (.aboveCommandWord 0x461) ∧
    decodeBytes [0x40#8] = .error (.aboveRoundWord 0x40) ∧ decodeBytes [] = .error (.notAContainer 0) := by decide

theorem test_decode_table_word :
    decodeTableWord 16 0x161 = some (.updb 0x61#8) ∧ decodeTableWord 8 0x1f = some (.rndG 15#4) ∧
    decodeTableWord 0 0 = none ∧ decodeTableWord 16 0x400 = none := by decide

/-! The tables: decode checks of section 4 of the test vectors. -/

theorem test_round_tables :
    (messageIndex 0x0f#6, sRom 0x0f#6, kRom 0x0f#6) = (15#4, 22#5, 0x49b40821#32) ∧
    (messageIndex 0x10#6, sRom 0x10#6, kRom 0x10#6) = (1#4, 5#5, 0xf61e2562#32) ∧
    (messageIndex 0x2f#6, sRom 0x2f#6, kRom 0x2f#6) = (2#4, 23#5, 0xc4ac5665#32) ∧
    (messageIndex 0x3f#6, sRom 0x3f#6, kRom 0x3f#6) = (9#4, 21#5, 0xeb86d391#32) := by decide

/-! Operators: vectors A2, A6, A9, A13, A18 to A21, A34 to A37. -/

theorem test_add32 : nextIs (exec (.add32 0xffffffff#32 0x1#32) State.reset) (fun s => s.wire == 0x0#32) ∧
    nextIs (exec (.add32 0xefcdab89#32 0xb5527beb#32) State.reset) (fun s => s.wire == 0xa5202774#32) := by decide
theorem test_rotl32 : nextIs (exec (.rotl32 0x80000000#32 1) State.reset) (fun s => s.wire == 0x1#32) ∧
    nextIs (exec (.rotl32 0x12345678#32 23) State.reset) (fun s => s.wire == 0x3c091a2b#32) := by decide
theorem test_not32 : nextIs (exec (.not32 0x10325476#32) State.reset) (fun s => s.wire == 0xefcdab89#32) := by decide
theorem test_and32 : nextIs (exec (.and32 0xefcdab89#32 0x98badcfe#32) State.reset) (fun s => s.wire == 0x88888888#32) := by
  decide
theorem test_or32 : nextIs (exec (.or32 0xefcdab89#32 0x98badcfe#32) State.reset) (fun s => s.wire == 0xffffffff#32) := by
  decide
theorem test_xor32 : nextIs (exec (.xor32 0xefcdab89#32 0x98badcfe#32) State.reset) (fun s => s.wire == 0x77777777#32) := by
  decide
theorem test_fnF : nextIs (exec (.fnF 0xffff0000#32 0xff00ff00#32 0xf0f0f0f0#32) State.reset)
    (fun s => s.wire == 0xff00f0f0#32) := by decide
theorem test_fnG : nextIs (exec (.fnG 0xffff0000#32 0xff00ff00#32 0xf0f0f0f0#32) State.reset)
    (fun s => s.wire == 0xfff00f00#32) := by decide
theorem test_fnH : nextIs (exec (.fnH 0xffff0000#32 0xff00ff00#32 0xf0f0f0f0#32) State.reset)
    (fun s => s.wire == 0xf00f0ff0#32) := by decide
theorem test_fnI : nextIs (exec (.fnI 0xffff0000#32 0xff00ff00#32 0xf0f0f0f0#32) State.reset)
    (fun s => s.wire == 0x00fff00f#32) := by decide

/-! Round steps: rows of trace T1, the working registers before (the row above) and after. -/

theorem test_rndF_0 : nextIs (exec (.rndF 0#4) (inT1 ⟨0x67452301#32, 0xefcdab89#32, 0x98badcfe#32, 0x10325476#32⟩ 0#6))
    (fun s => s.work == ⟨0x10325476#32, 0xa5202774#32, 0xefcdab89#32, 0x98badcfe#32⟩ && s.ri == 1#6) := by decide +kernel
theorem test_rndF_15 : nextIs (exec (.rndF 15#4) (inT1 ⟨0x70768a29#32, 0x5aa53f75#32, 0x374943a7#32, 0xf56c7cf1#32⟩ 15#6))
    (fun s => s.work == ⟨0xf56c7cf1#32, 0xd6819c6a#32, 0x5aa53f75#32, 0x374943a7#32⟩ && s.ri == 16#6) := by decide +kernel
theorem test_rndG_16 : nextIs (exec (.rndG 0#4) (inT1 ⟨0xf56c7cf1#32, 0xd6819c6a#32, 0x5aa53f75#32, 0x374943a7#32⟩ 16#6))
    (fun s => s.work == ⟨0x374943a7#32, 0x1c7d7513#32, 0xd6819c6a#32, 0x5aa53f75#32⟩ && s.ri == 17#6) := by decide +kernel
theorem test_rndG_19 : nextIs (exec (.rndG 3#4) (inT1 ⟨0xd6819c6a#32, 0xc095f13a#32, 0x7bd57a3a#32, 0x1c7d7513#32⟩ 19#6))
    (fun s => s.work == ⟨0x1c7d7513#32, 0xbd782e17#32, 0xc095f13a#32, 0x7bd57a3a#32⟩ && s.ri == 20#6) := by decide +kernel
theorem test_rndH_32 : nextIs (exec (.rndH 0#4) (inT1 ⟨0x13707036#32, 0xa2205f1f#32, 0x1c31c384#32, 0xae7813db#32⟩ 32#6))
    (fun s => s.work == ⟨0xae7813db#32, 0xdf63eaa1#32, 0xa2205f1f#32, 0x1c31c384#32⟩ && s.ri == 33#6) := by decide +kernel
theorem test_rndH_41 : nextIs (exec (.rndH 9#4) (inT1 ⟨0xabc34e16#32, 0x4497169d#32, 0xc5dc8c15#32, 0x91ca4cb7#32⟩ 41#6))
    (fun s => s.work == ⟨0x91ca4cb7#32, 0x76fd93d4#32, 0x4497169d#32, 0xc5dc8c15#32⟩ && s.ri == 42#6) := by decide +kernel
theorem test_rndI_48 : nextIs (exec (.rndI 0#4) (inT1 ⟨0x3f55edfd#32, 0xca7d2dbd#32, 0x68d84ea2#32, 0x22a31f54#32⟩ 48#6))
    (fun s => s.work == ⟨0x22a31f54#32, 0x93aa2577#32, 0xca7d2dbd#32, 0x68d84ea2#32⟩ && s.ri == 49#6) := by decide +kernel
theorem test_rndI_63 : nextIs (exec (.rndI 15#4) (inT1 ⟨0x30130182#32, 0xff4ea3eb#32, 0x6e10a476#32, 0x7246fad3#32⟩ 63#6))
    (fun s => s.work == ⟨0x7246fad3#32, 0x14e45506#32, 0xff4ea3eb#32, 0x6e10a476#32⟩ && s.ri == 63#6) := by decide +kernel

/-! Sequencer steps: T1's seed and feed-forward, B3 and B5, L8 to L10, S5. -/

theorem test_seed : nextIs (exec .seed (inT1 ⟨0x1#32, 0x2#32, 0x3#32, 0x4#32⟩ 63#6))
    (fun s => s.work == ⟨0x67452301#32, 0xefcdab89#32, 0x98badcfe#32, 0x10325476#32⟩ && s.ri == 0#6) := by decide
theorem test_feedfwd : nextIs (exec .feedfwd (inT1 ⟨0x7246fad3#32, 0x14e45506#32, 0xff4ea3eb#32, 0x6e10a476#32⟩ 63#6))
    (fun s => s.h == ⟨0xd98c1dd4#32, 0x04b2008f#32, 0x980980e9#32, 0x7e42f8ec#32⟩) := by decide
theorem test_compress_zero : nextIs (exec .compress { State.reset with h := ⟨0x0#32, 0x0#32, 0x0#32, 0x0#32⟩ })
    (fun s => s.h == ⟨0xf7cd1c97#32, 0xa5483681#32, 0x2b68d832#32, 0xf90ca639#32⟩) := by decide +kernel
theorem test_compress_ones : nextIs
    (exec .compress { State.reset with h := ⟨0xffffffff#32, 0xffffffff#32, 0xffffffff#32, 0xffffffff#32⟩,
                                       buf := bufOf (List.replicate 64 0xff#8) })
    (fun s => s.h == ⟨0x6cba9129#32, 0x29ffd12a#32, 0x8b9bb7d3#32, 0xa9a0a3c1#32⟩) := by decide +kernel
/-- L8, the one-block case with both length words non-zero. -/
theorem test_pad_one_block : nextIs (exec .pad { State.reset with total := 0x123456789#64, cur := 9#6 })
    (fun s => (List.range 8).map (fun k => s.buf.read (56 + k)) ==
        [0x48#8, 0x3c#8, 0x2b#8, 0x1a#8, 0x09#8, 0x00#8, 0x00#8, 0x00#8] && s.buf.read 9 == 0x80#8) := by decide +kernel
/-- V21's last block: two blocks, the second rebuilt from zero. -/
theorem test_pad_two_blocks : nextIs (exec .pad (partialA 56))
    (fun s => s.h == ⟨0xc78a0c3b#32, 0xb028f803#32, 0x70196c4c#32, 0x1872d106#32⟩ &&
      s.buf == bufOf (List.replicate 56 0x00#8 ++ [0xc0#8, 0x01#8])) := by decide +kernel
theorem test_serialize : nextIs
    (exec .serialize { State.reset with h := ⟨0x03020100#32, 0x07060504#32, 0x0b0a0908#32, 0x0f0e0d0c#32⟩ })
    (fun s => s.digest == #v[0x00#8, 0x01#8, 0x02#8, 0x03#8, 0x04#8, 0x05#8, 0x06#8, 0x07#8,
        0x08#8, 0x09#8, 0x0a#8, 0x0b#8, 0x0c#8, 0x0d#8, 0x0e#8, 0x0f#8] && s.dvalid &&
      digestPort s == 0x0f0e0d0c0b0a09080706050403020100#128) := by decide +kernel

/-! Commands: Q5 to Q7, the counter wrap, V1, V20, P7 (the digest of "a"). -/

theorem test_new : nextIs (exec .new (partialA 3))
    (fun s => s.h == ⟨0x67452301#32, 0xefcdab89#32, 0x98badcfe#32, 0x10325476#32⟩ && s.total == 0#64 && s.cur == 0#6) := by decide +kernel
theorem test_updb_trigger : nextIs (exec (.updb 0x61#8) (partialA 63))
    (fun s => s.h == ⟨0x89d4ff56#32, 0x125cd962#32, 0x69cade33#32, 0x0033e325#32⟩ && s.cur == 0#6 && s.total == 64#64) := by
  decide +kernel
theorem test_updb_counter_wraps : nextIs (exec (.updb 0x61#8) { State.reset with total := 0xffffffffffffffff#64 })
    (fun s => s.total == 0#64 && s.cur == 1#6 && s.buf == [(0, 0x61#8)]) := by decide
theorem test_fin_empty : nextIs (exec .fin State.reset)
    (fun s => digestPort s == 0x7e42f8ec980980e904b2008fd98c1dd4#128 && s.dvalid && s.phase == .spent) := by decide +kernel
theorem test_fin_55 : nextIs (exec .fin (partialA 55))
    (fun s => s.digest.toList == [0xef#8, 0x17#8, 0x72#8, 0xb6#8, 0xdf#8, 0xf9#8, 0xa1#8, 0x22#8,
        0x35#8, 0x85#8, 0x52#8, 0x95#8, 0x4a#8, 0xd0#8, 0xdf#8, 0x65#8]) := by decide +kernel
theorem test_finr_a : nextIs (exec .finr (partialA 1))
    (fun s => s.digest.toList == [0x0c#8, 0xc1#8, 0x75#8, 0xb9#8, 0xc0#8, 0xf1#8, 0xb6#8, 0xa8#8,
        0x31#8, 0xc3#8, 0x99#8, 0xe2#8, 0x69#8, 0x77#8, 0x26#8, 0x61#8] &&
      s.h == ⟨0x67452301#32, 0xefcdab89#32, 0x98badcfe#32, 0x10325476#32⟩ && s.total == 0#64 && s.cur == 0#6 && s.phase == .acc) := by decide +kernel
theorem test_spent_refuses : refusedAs (exec (.updb 0x62#8) spentUnit) .consumed = true ∧
    refusedAs (exec .fin spentUnit) .consumed = true := by decide

/-! Pseudo-instructions: Q4, and V2 and V3, the source's own digests. -/

theorem test_update_abc : nextIs (exec (.update [0x61#8, 0x62#8, 0x63#8]) State.reset)
    (fun s => s.cur == 3#6 && s.total == 3#64 && s.buf == bufOf [0x61#8, 0x62#8, 0x63#8]) := by decide
theorem test_hash_abc : nextIs (exec (.hash [0x61#8, 0x62#8, 0x63#8]) State.reset)
    (fun s => s.digest.toList == [0x90#8, 0x01#8, 0x50#8, 0x98#8, 0x3c#8, 0xd2#8, 0x4f#8, 0xb0#8,
        0xd6#8, 0x96#8, 0x3f#8, 0x7d#8, 0x28#8, 0xe1#8, 0x7f#8, 0x72#8]) := by decide +kernel
theorem test_hash_hello : nextIs (exec (.hash [0x48#8, 0x65#8, 0x6c#8, 0x6c#8, 0x6f#8, 0x2c#8, 0x20#8,
      0x77#8, 0x6f#8, 0x72#8, 0x6c#8, 0x64#8, 0x21#8]) spentUnit)
    (fun s => s.digest.toList == [0x6c#8, 0xd3#8, 0x55#8, 0x6d#8, 0xeb#8, 0x0d#8, 0xa5#8, 0x4b#8,
        0xca#8, 0x06#8, 0x0b#8, 0x4c#8, 0x39#8, 0x47#8, 0x98#8, 0x39#8]) := by decide +kernel

/-! Steps: a placed word runs at once (Q2; T1 round 0), and a reset edge wins (R232). -/

theorem test_step_placed_command : nextIs (step (State.reset.withFetchWord 16 0x161))
    (fun s => s.cur == 1#6 && s.total == 1#64 && s.buf == [(0, 0x61#8)] && s.inbox == []) := by decide
theorem test_step_placed_round : nextIs (step ((inT1 ⟨0x67452301#32, 0xefcdab89#32, 0x98badcfe#32, 0x10325476#32⟩ 9#6).withFetchWord 8 0x00))
    (fun s => s.work == ⟨0x10325476#32, 0xa5202774#32, 0xefcdab89#32, 0x98badcfe#32⟩ && s.ri == 1#6) := by decide +kernel
theorem test_step_reset_edge : nextIs
    (step { busyUnit with inbox := [.edge { rst := true, valid := true, cmd := 0x161#10, advance := true }] })
    (fun s => s.busy == false && s.todo == [] && s.h == ⟨0x67452301#32, 0xefcdab89#32, 0x98badcfe#32, 0x10325476#32⟩) := by decide

/-! Witnesses: for each statement with hypotheses, a concrete case that meets them. -/

theorem test_witness_DecodeOfEncodeIsTheInstruction :
    (Instr.rotl32 0x1#32 31).wellFormed = true ∧ (Instr.rotl32 0x1#32 1).wellFormed = true := by
  decide

theorem test_witness_RotationMovesEveryBit :
    (1 ≤ 1 ∧ 1 ≤ 31) ∧ (1 ≤ 31 ∧ 31 ≤ 31) ∧ 0 < 32 ∧ 31 < 32 := by
  decide

theorem test_witness_BitwiseOperatorsActPerBit :
    ∃ k, k < 32 ∧ k + 1 = 32 := by
  exact ⟨31, by decide⟩

theorem test_witness_RoundFunctionsFollowTheirTruthTables :
    ∃ k, k < 32 ∧ k + 1 = 32 := by
  exact ⟨31, by decide⟩

theorem test_witness_BufferWriteIsReadBack :
    Memory.wf [(0, 0x61#8)] = true ∧ 56 + 8 ≤ 64 ∧ 7 < 8 ∧ (55 < 56 ∨ 56 + 8 ≤ 55) ∧ (64 < 56 ∨ 56 + 8 ≤ 64) := by
  decide

theorem test_witness_RndFStepUsesFAndWordI :
    (inT1 ⟨0x67452301#32, 0xefcdab89#32, 0x98badcfe#32, 0x10325476#32⟩ 0#6).ri = 0b00#2 ++ 0#4 ∧ (inT1 ⟨0x67452301#32, 0xefcdab89#32, 0x98badcfe#32, 0x10325476#32⟩ 15#6).ri = 0b00#2 ++ 15#4 := by
  decide

theorem test_witness_RndGStepUsesGAndItsWord :
    (inT1 ⟨0x67452301#32, 0xefcdab89#32, 0x98badcfe#32, 0x10325476#32⟩ 16#6).ri = 0b01#2 ++ 0#4 ∧ (inT1 ⟨0x67452301#32, 0xefcdab89#32, 0x98badcfe#32, 0x10325476#32⟩ 31#6).ri = 0b01#2 ++ 15#4 := by
  decide

theorem test_witness_RndHStepUsesHAndItsWord :
    (inT1 ⟨0x67452301#32, 0xefcdab89#32, 0x98badcfe#32, 0x10325476#32⟩ 32#6).ri = 0b10#2 ++ 0#4 ∧ (inT1 ⟨0x67452301#32, 0xefcdab89#32, 0x98badcfe#32, 0x10325476#32⟩ 47#6).ri = 0b10#2 ++ 15#4 := by
  decide

theorem test_witness_RndIStepUsesIAndItsWord :
    (inT1 ⟨0x67452301#32, 0xefcdab89#32, 0x98badcfe#32, 0x10325476#32⟩ 48#6).ri = 0b11#2 ++ 0#4 ∧ (inT1 ⟨0x67452301#32, 0xefcdab89#32, 0x98badcfe#32, 0x10325476#32⟩ 63#6).ri = 0b11#2 ++ 15#4 := by
  decide

theorem test_witness_UpdbAppendsOneByte :
    (State.reset.buf.wf = true ∧ State.reset.phase = .acc ∧ State.reset.cur ≠ 63#6) ∧
    ((partialA 62).buf.wf = true ∧ (partialA 62).phase = .acc ∧ (partialA 62).cur ≠ 63#6 ∧ 61 ≠ (partialA 62).cur.toNat) ∧
    ((partialA 63).buf.wf = true ∧ (partialA 63).phase = .acc ∧ (partialA 63).cur = 63#6) ∧
    (spentUnit.buf.wf = true ∧ spentUnit.phase = .spent) := by
  decide +kernel

theorem test_witness_UpdateInClosedForm :
    (partialA 63).buf.wf = true ∧ (partialA 63).phase = .acc ∧ ∀ k, k < 2 → 1 ≠ ((partialA 63).cur.toNat + k) % 64 := by
  decide +kernel

theorem test_witness_UpdateAtItsEdges :
    spentUnit.phase = .spent := by
  decide

theorem test_witness_PadOneBlockCompressesTheTail :
    (State.reset.buf.wf = true ∧ State.reset.cur.toNat ≤ 55) ∧ (partialA 55).buf.wf = true ∧ (partialA 55).cur.toNat ≤ 55 := by
  decide +kernel

theorem test_witness_PadTwoBlocksCompressesTwice :
    ((partialA 56).buf.wf = true ∧ 56 ≤ (partialA 56).cur.toNat) ∧ (partialA 63).buf.wf = true ∧ 56 ≤ (partialA 63).cur.toNat := by
  decide +kernel

theorem test_witness_LengthFieldIsTheBitLength :
    State.reset.buf.wf = true ∧ (partialA 63).buf.wf = true ∧ 7 < 8 := by
  decide +kernel

theorem test_witness_FinPadsSerializesAndSpends :
    State.reset.phase = .acc ∧ spentUnit.phase = .spent := by
  decide

theorem test_witness_FinrPadsSerializesAndReinitialises :
    (partialA 56).phase = .acc ∧ spentUnit.phase = .spent := by
  decide

theorem test_witness_FinrIsFinThenNew :
    State.reset.phase = .acc := by
  decide

theorem test_witness_HashComputesTheMessageDigest :
    ∃ (msg : List Byte) (s : State), s.buf.wf = true ∧ msg.length < 2 ^ 61 ∧ s.phase = .spent ∧ msg ≠ [] := by
  exact ⟨[0x61#8], spentUnit, by decide⟩

theorem test_witness_CommandStreamComputesTheMessageDigest :
    ∃ (msg : List Byte) (s : State), s.buf.wf = true ∧ AtBoundary s ∧ msg.length < 2 ^ 61 ∧ msg ≠ [] := by
  exact ⟨[0x61#8], State.reset, by decide, ⟨rfl, rfl, rfl⟩, by decide, by decide⟩

theorem test_witness_FinrThenTheSameInputGivesTheSameDigest :
    ∃ (msg : List Byte) (s : State), s.buf.wf = true ∧ s.phase = .acc ∧ msg.length < 2 ^ 61 ∧ s.cur ≠ 0#6 := by
  exact ⟨[0x61#8], partialA 1, by decide⟩

theorem test_witness_SpentUnitAcceptsOnlyNew :
    spentUnit.phase = .spent ∧ State.reset.phase = .acc := by
  decide

theorem test_witness_EveryInstructionCompletes :
    ∃ (i j : Instr) (s t : State),
    (s.phase = .acc ∨ (i ≠ .fin ∧ i ≠ .finr ∧ (∀ d, i ≠ .updb d) ∧ ∀ d data, i ≠ .update (d :: data))) ∧ i = .fin ∧
    (t.phase = .acc ∨ (j ≠ .fin ∧ j ≠ .finr ∧ (∀ d, j ≠ .updb d) ∧ ∀ d data, j ≠ .update (d :: data))) ∧ t.phase = .spent := by
  exact ⟨.fin, .pad, State.reset, spentUnit, .inl rfl, rfl,
    .inr ⟨by decide, by decide, (fun _ h => by cases h), fun _ _ h => by cases h⟩, rfl⟩

theorem test_witness_OnlySerializeWritesTheDigest :
    ∃ (i : Instr) (s t : State), exec i s = .next t ∧ i ≠ .serialize ∧ i ≠ .fin ∧ i ≠ .finr ∧ ∀ data, i ≠ .hash data := by
  exact ⟨.new, spentUnit, _, rfl, by decide, by decide, by decide, fun _ h => by cases h⟩

theorem test_witness_UntouchedStateStaysAsItWas :
    ∃ (i : Instr) (s t : State), exec i s = .next t ∧
    i ∉ [Instr.new, .fin, .finr, .feedfwd, .compress, .pad] ∧ (∀ d, i ≠ .updb d) ∧ (∀ d, i ≠ .update d) ∧ ∀ d, i ≠ .hash d := by
  exact ⟨.seed, State.reset, _, rfl, by decide, (fun _ h => by cases h), (fun _ h => by cases h), fun _ h => by cases h⟩

theorem test_witness_OnlyFinSpendsAndOnlyNewRevives :
    (∃ s t : State, exec .fin s = .next t ∧ s.phase = .acc ∧ t.phase = .spent) ∧
    ∃ s t : State, exec .new s = .next t ∧ s.phase = .spent ∧ t.phase = .acc := by
  exact ⟨⟨State.reset, _, rfl, rfl, rfl⟩, spentUnit, _, rfl, rfl, rfl⟩

theorem test_witness_ResetEdgeWinsFromAnyState :
    ∃ e : Edge, e.rst = true ∧ e.valid = true := by
  exact ⟨{ rst := true, valid := true, cmd := 0x161#10, advance := true }, rfl, rfl⟩

theorem test_witness_ThreeWaysToAFreshAccumulator :
    ∃ (s : State) (e : Edge), e.rst = true ∧ s.phase = .acc := by
  exact ⟨State.reset, { rst := true, valid := false, cmd := 0#10, advance := false }, rfl, rfl⟩

theorem test_witness_StepRunsTheCommandWord :
    (State.reset.busy = false ∧ State.reset.offered = none) ∧
    ∃ s : State, s.busy = false ∧ s.offered = some 0x161#10 := by
  exact ⟨⟨rfl, rfl⟩, { State.reset with offered := some 0x161#10 }, rfl, rfl⟩

theorem test_witness_StepRunsTheRoundWord :
    ∃ (s : State) (e : Edge), s.busy = true ∧ s.todo = .round :: [.feedfwd] ∧ s.offered = none ∧
    e.rst = false ∧ e.advance = true ∧ e.valid = true := by
  exact ⟨busyUnit, { rst := false, valid := true, cmd := 0x161#10, advance := true }, rfl, rfl, rfl, rfl, rfl, rfl⟩

theorem test_witness_StepRunsThePlacedTableWord :
    decodeTableWord 16 0x3ff = some .finr ∧ decodeTableWord 16 0 = some .new ∧ decodeTableWord 8 0x3f = some (.rndI 15#4) := by
  decide

theorem test_witness_EdgeByEdgeRunEqualsTheAtomicCommand :
    (AtBoundary State.reset ∧ State.reset.phase = .acc ∧ 1 < (plan (decode (.cmd 0x161#10)) State.reset).length) ∧
    AtBoundary spentUnit ∧ decode (.cmd 0x000#10) = .new ∧ 0 < (plan (decode (.cmd 0x000#10)) spentUnit).length := by
  exact ⟨⟨⟨rfl, rfl, rfl⟩, rfl, by decide⟩, ⟨rfl, rfl, rfl⟩, by decide, by decide⟩

theorem test_witness_BusyUnitLeavesTheOfferedCommand :
    (busyUnit.busy = true ∧ busyUnit.offered = none ∧ busyUnit.todo = .round :: [.feedfwd]) ∧
    (∃ (s : State) (e : Edge), s.busy = true ∧ e.rst = false ∧ e.valid = true ∧ s.offered = some e.cmd ∧
      e.advance = true ∧ s.todo = .serializeSpend :: []) ∧
    ∃ (s : State) (e : Edge), s.busy = true ∧ e.rst = false ∧ e.valid = false ∧ s.offered = none ∧
      e.advance = false ∧ s.todo = .length :: [.seed] := by
  exact ⟨⟨rfl, rfl, rfl⟩,
    ⟨{ busyUnit with todo := [.serializeSpend], offered := some 0x161#10 },
      { rst := false, valid := true, cmd := 0x161#10, advance := true }, rfl, rfl, rfl, rfl, rfl, rfl⟩,
    { busyUnit with todo := [.length, .seed] }, { rst := false, valid := false, cmd := 0#10, advance := false },
    rfl, rfl, rfl, rfl, rfl, rfl⟩

theorem test_witness_BrokenHandshakeIsRefused :
    ∃ (s : State) (d c : Edge), s.offered = some 0x161#10 ∧ (d.rst = false ∧ d.valid = false) ∧
    (c.rst = false ∧ c.valid = true ∧ c.cmd ≠ 0x161#10) ∧
    ∃ r : State, r.busy = false ∧ r.offered = some 0x161#10 := by
  exact ⟨{ busyUnit with offered := some 0x161#10 }, { rst := false, valid := false, cmd := 0x161#10, advance := true },
    { rst := false, valid := true, cmd := 0x162#10, advance := true }, rfl, ⟨rfl, rfl⟩, ⟨rfl, rfl, by decide⟩,
    { State.reset with offered := some 0x161#10 }, rfl, rfl⟩

theorem test_witness_IdleEdgesHoldTheState :
    ∃ e : Edge, AtBoundary State.reset ∧ e.rst = false ∧ e.valid = false := by
  exact ⟨idleEdge, ⟨rfl, rfl, rfl⟩, rfl, rfl⟩

theorem test_witness_EveryStepKeepsTheInvariant :
    ∃ s t : State, Inv s ∧ step s = .next t ∧ t.cur = 1#6 := by
  exact ⟨State.reset.withFetchWord 16 0x161, _,
    ⟨rfl, by simp [State.withFetchWord, placeTableWord, placeCode, codeOfTable, bytesOfNat, codeOfBytes], _, rfl,
      fun _ => rfl⟩, rfl, rfl⟩

theorem test_witness_LegalStreamsAreNeverRefused :
    (AtBoundary State.reset ∧ State.reset.phase = .acc) ∧
    finThenNew ([0x161#10, 0x200#10, 0x000#10].map decodeCmd) ∧ ¬ finThenNew ([0x200#10, 0x161#10].map decodeCmd) := by
  refine ⟨⟨⟨rfl, rfl, rfl⟩, rfl⟩, ?_, ?_⟩ <;> simp [finThenNew, decodeCmd, cmdData]

theorem test_witness_OpenValuesInfluenceNothing :
    ∃ s t : State, s.buf.wf = true ∧ t.buf.wf = true ∧ AtBoundary s ∧ AtBoundary t ∧ SameButOpen s t ∧ s ≠ t := by
  refine ⟨State.reset, { State.reset with ri := 5#6, buf := [(0, 0x61#8)] }, rfl, rfl, ⟨rfl, rfl, rfl⟩, ⟨rfl, rfl, rfl⟩,
    ⟨rfl, rfl, fun h => rfl, fun _ => ⟨rfl, rfl, rfl, ?_⟩⟩, by decide⟩
  intro n h
  exact absurd h (Nat.not_lt_zero n)

end Sys2Proof.Tests
end

section
/-! The obligations of `spec/00_scope.md`: the memory primitives (R15). -/

namespace Sys2Proof.Proofs.Scope

open Sys2Proof.Machine

/-- The weight of byte `k` as the spec writes it and as `memRead` and `memWrite` build it, factor by factor. -/
theorem two_pow_eight_mul (k : Nat) : 2 ^ (8 * k) = 256 ^ k := pow_mul 2 8 k

/-- The recursion of `memRead` (least byte first, the rest times 256) is R15's weighted sum. -/
theorem memRead_eq_sum (m : Memory) (a n : Nat) :
    memRead m a n = ((List.range n).map fun k => 2 ^ (8 * k) * (m.read (a + k)).toNat).sum := by
  simp only [two_pow_eight_mul]
  induction n generalizing a with
  | zero => rfl
  | succ n ih =>
    have shift : ∀ k, 256 ^ (k + 1) * (m.read (a + (k + 1))).toNat
        = 256 * (256 ^ k * (m.read (a + 1 + k)).toNat) := fun k => by
      rw [pow_succ', mul_assoc, Nat.add_right_comm a 1 k, Nat.add_assoc]
    rw [memRead, ih, List.range_succ_eq_map, List.map_cons, List.sum_cons, List.map_map, ← List.sum_map_mul_left]
    simp [Function.comp_def, shift]

/-- Settles O12: R15's sum for `MemRead`, and the buffer laws of `MemWrite` with `256 ^ k` written `2 ^ (8 * k)`. -/
theorem bufferWriteIsReadBack : Obligations.BufferWriteIsReadBack := by
  intro m addr n v hwf hin
  refine ⟨fun k hk => ?_, fun a ha => read_memWrite_outside m v ha, memRead_eq_sum m addr n, ?_,
    wf_memWrite hwf v hin⟩
  · rw [two_pow_eight_mul]
    exact read_memWrite_inside hwf v hk hin
  · rw [two_pow_eight_mul]
    exact memRead_memWrite hwf v hin

end Sys2Proof.Proofs.Scope
end

section
/-! The obligations of `spec/10_state.md`: what the instructions leave unchanged, the digest port, the
invariant of the state, and the values the spec leaves open. -/

namespace Sys2Proof.Proofs.ArchState

open Sys2Proof.Machine Sys2Proof.Safety

/-! ### What an instruction can do to the state -/

/-- What an instruction can do when it completes, one case for each row that writes more than scratch. The last
case is an upper bound: whatever else a row does, it only writes `a, b, c, d`, `RI` or an operator's output. -/
inductive Effect (s : State) : Instr → State → Prop where
  | new : Effect s .new (reinitialise s)
  | updb (d : Byte) (hs : s.phase = .acc) : Effect s (.updb d) (appendByte d s)
  | fin (hs : s.phase = .acc) : Effect s .fin (markSpent (finalise s))
  | finr (hs : s.phase = .acc) : Effect s .finr (reinitialise (finalise s))
  | feedfwd : Effect s .feedfwd (feedForward s)
  | compress : Effect s .compress (compress s)
  | pad : Effect s .pad (padMessage s)
  | serialize : Effect s .serialize (serialize s)
  | update (data : List Byte) {t : State} (ht : appendBytes data s = .next t) : Effect s (.update data) t
  | hash (data : List Byte) {u : State} (hu : appendBytes data (reinitialise s) = .next u) :
      Effect s (.hash data) (markSpent (finalise u))
  | scratch (i : Instr) (work : Quad) (ri : BitVec 6) (wire : Word) :
      Effect s i { s with work := work, ri := ri, wire := wire }

/-- No instruction does anything else. -/
theorem effect_of_exec {i : Instr} {s t : State} (h : exec i s = .next t) : Effect s i t := by
  cases i with
  | new => rw [exec_new] at h; cases h; exact .new
  | updb d =>
    obtain ⟨hs, rfl⟩ := whileAccumulating_eq_next.mp ((exec_updb d s).symm.trans h)
    exact .updb d hs
  | fin =>
    obtain ⟨hs, rfl⟩ := whileAccumulating_eq_next.mp ((exec_fin s).symm.trans h)
    exact .fin hs
  | finr =>
    obtain ⟨hs, rfl⟩ := whileAccumulating_eq_next.mp ((exec_finr s).symm.trans h)
    exact .finr hs
  | feedfwd => rw [exec_feedfwd] at h; cases h; exact .feedfwd
  | compress => rw [exec_compress] at h; injection h with h; subst h; exact .compress
  | pad => rw [exec_pad] at h; injection h with h; subst h; exact .pad
  | serialize => rw [exec_serialize] at h; cases h; exact .serialize
  | update data => exact .update data ((exec_update data s).symm.trans h)
  | hash data =>
    obtain ⟨u, hu, ht⟩ := andThen_eq_next.mp ((exec_hash data s).symm.trans h)
    obtain ⟨-, rfl⟩ := whileAccumulating_eq_next.mp ((exec_fin u).symm.trans ht)
    exact .hash data hu
  | _ => injection h with h; subst h; exact .scratch _ _ _ _

/-- What every appended byte keeps, a run of `UPDB` keeps. -/
theorem appendBytes_induction {P : State → Prop} (hP : ∀ d s, s.phase = .acc → P s → P (appendByte d s))
    {data : List Byte} {s t : State} (h : appendBytes data s = .next t) (hs : P s) : P t := by
  induction data generalizing s with
  | nil => injection h with h; exact h ▸ hs
  | cons d ds ih =>
    obtain ⟨u, hu, ht⟩ := andThen_eq_next.mp h
    obtain ⟨hacc, rfl⟩ := whileAccumulating_eq_next.mp hu
    exact ih ht (hP d s hacc hs)

/-- A run of `UPDB` keeps the phase and the digest outputs. -/
theorem appendBytes_keeps {data : List Byte} {s t : State} (h : appendBytes data s = .next t) :
    t.phase = s.phase ∧ t.digest = s.digest ∧ t.dvalid = s.dvalid :=
  appendBytes_induction (P := fun u => u.phase = s.phase ∧ u.digest = s.digest ∧ u.dvalid = s.dvalid)
    (fun d u _ hu => by simpa using hu) h ⟨rfl, rfl, rfl⟩

/-- Settles O43, by what each instruction can do. -/
theorem onlySerializeWritesTheDigest : Obligations.OnlySerializeWritesTheDigest := by
  intro i s t h hserialize hfin hfinr hhash
  cases effect_of_exec h with
  | serialize => exact absurd rfl hserialize
  | fin => exact absurd rfl hfin
  | finr => exact absurd rfl hfinr
  | hash data => exact absurd rfl (hhash data)
  | update _ ht => exact (appendBytes_keeps ht).2
  | _ => simp

/-- Settles O44, by what each instruction can do: a listed instruction meets no premise, and any other leaves
the field alone by its frame. -/
theorem untouchedStateStaysAsItWas : Obligations.UntouchedStateStaysAsItWas := by
  intro i s t h
  cases effect_of_exec h with
  | scratch => exact ⟨fun _ _ _ _ => rfl, fun _ _ _ _ _ => rfl, fun _ _ _ _ => ⟨rfl, rfl⟩⟩
  | _ => simp

/-- Settles O45, by what each instruction can do to the phase. -/
theorem onlyFinSpendsAndOnlyNewRevives : Obligations.OnlyFinSpendsAndOnlyNewRevives := by
  intro i s t h
  have kept {u : State} (hu : u.phase = s.phase) (P Q : Prop) :
      (s.phase = .acc → u.phase = .spent → P) ∧ (s.phase = .spent → u.phase = .acc → Q) := by
    constructor <;> intro h1 h2 <;> simp [hu, h1] at h2
  cases effect_of_exec h with
  | new => exact ⟨fun _ h2 => by simp at h2, fun _ _ => rfl⟩
  | fin hs => exact ⟨fun _ _ => .inl rfl, fun h1 _ => by simp [hs] at h1⟩
  | finr hs => exact ⟨fun _ h2 => by simp at h2, fun h1 _ => by simp [hs] at h1⟩
  | hash data => exact ⟨fun _ _ => .inr ⟨data, rfl⟩, fun _ h2 => by simp at h2⟩
  | update _ ht => exact kept (appendBytes_keeps ht).1 _ _
  | _ => exact kept (by simp) _ _

/-! ### The output `digest` -/

theorem littleEndian_append (xs ys : List Byte) :
    littleEndian (xs ++ ys) = littleEndian xs + 256 ^ xs.length * littleEndian ys := by
  induction xs with
  | nil => simp [littleEndian]
  | cons x xs ih =>
    rw [List.cons_append, littleEndian, ih, littleEndian, List.length_cons, pow_succ']
    ring

/-- The digits of a little-endian number to base 256 are its bytes. -/
theorem ofNat_littleEndian_div (bs : List Byte) (k : Nat) (h : k < bs.length) :
    BitVec.ofNat 8 (littleEndian bs / 256 ^ k) = bs[k] := by
  induction bs generalizing k with
  | nil => simp at h
  | cons b bs ih =>
    have hb := b.isLt
    cases k with
    | zero =>
      apply BitVec.eq_of_toNat_eq
      rw [littleEndian, pow_zero, Nat.div_one, BitVec.toNat_ofNat, List.getElem_cons_zero]
      omega
    | succ k =>
      rw [littleEndian, pow_succ', ← Nat.div_div_eq_div_mul, show (b.toNat + 256 * littleEndian bs) / 256 =
        littleEndian bs by omega, ih k (by simpa using h), List.getElem_cons_succ]

/-- Bits `8k+7 .. 8k` of the output are `DIGEST[k]`. -/
theorem digestPort_byte (s : State) (k : Fin 16) :
    (digestPort s).extractLsb' (8 * k.val) 8 = s.digest[k.val] := by
  have hk := k.isLt
  have h := ofNat_littleEndian_div s.digest.toList k.val (by simp)
  rw [Vector.getElem_toList] at h
  rw [← h, ← Nat.pow_mul 2 8, ← Nat.shiftRight_eq_div_pow]
  apply BitVec.eq_of_getLsbD_eq
  intro i hi
  have hki : 8 * k.val + i < 128 := by omega
  simp only [digestPort, BitVec.getLsbD_extractLsb', BitVec.getLsbD_ofNat, Nat.testBit_shiftRight, hi, hki, decide_true,
    Bool.true_and]

/-- The four bytes of a word, the least significant first, are the word. -/
theorem littleEndian_wordBytes (w : Word) :
    littleEndian [wordByte w 0, wordByte w 1, wordByte w 2, wordByte w 3] = w.toNat := by
  have hw := w.isLt
  simp only [littleEndian, wordByte, BitVec.toNat_ofNat, Nat.shiftRight_eq_div_pow]
  omega

/-- The sixteen bytes of `DIGEST` are the four words one above another. -/
theorem littleEndian_digestOf (q : Quad) :
    littleEndian (digestOf q).toList =
      q.a.toNat + 2 ^ 32 * (q.b.toNat + 2 ^ 32 * (q.c.toNat + 2 ^ 32 * q.d.toNat)) := by
  rw [show (digestOf q).toList =
      [wordByte q.a 0, wordByte q.a 1, wordByte q.a 2, wordByte q.a 3] ++
      ([wordByte q.b 0, wordByte q.b 1, wordByte q.b 2, wordByte q.b 3] ++
      ([wordByte q.c 0, wordByte q.c 1, wordByte q.c 2, wordByte q.c 3] ++
       [wordByte q.d 0, wordByte q.d 1, wordByte q.d 2, wordByte q.d 3])) from rfl]
  rw [littleEndian_append, littleEndian_append, littleEndian_append, littleEndian_wordBytes, littleEndian_wordBytes,
    littleEndian_wordBytes, littleEndian_wordBytes]
  norm_num

/-- Appended words add up, the left one above the right one. -/
theorem toNat_append_word {n : Nat} (x : BitVec n) (w : Word) :
    (x ++ w).toNat = w.toNat + 2 ^ 32 * x.toNat := by
  rw [BitVec.toNat_append, ← Nat.shiftLeft_add_eq_or_of_lt w.isLt, Nat.shiftLeft_eq, Nat.mul_comm, Nat.add_comm]

/-- Settles O33: the bytes of a digest are the words' bytes in order, so the little-endian number they make is
the four words appended. -/
theorem digestPortShowsTheStateWords : Obligations.DigestPortShowsTheStateWords := by
  intro s
  refine ⟨serialize s, exec_serialize s, ?_, digestPort_byte _⟩
  apply BitVec.eq_of_toNat_eq
  have ha := s.h.a.isLt
  have hb := s.h.b.isLt
  have hc := s.h.c.isLt
  have hd := s.h.d.isLt
  rw [digestPort, serialize_digest, littleEndian_digestOf]
  simp only [toNat_append_word, BitVec.toNat_ofNat]
  omega

/-! ### The invariant -/

/-- The micro-operations end in a state whose cursor agrees with the counter: the last clause of `Inv`. -/
def EndsAgreed (ms : List Micro) (s : State) : Prop := ∃ t, finish ms s = .next t ∧ CursorAgrees t

theorem endsAgreed_nil {s : State} : EndsAgreed [] s ↔ CursorAgrees s := by
  simp [EndsAgreed, finish_nil]

theorem endsAgreed_cons {m : Micro} {ms : List Micro} {s : State} :
    EndsAgreed (m :: ms) s ↔ EndsAgreed ms (runMicroState m s) := by
  rw [EndsAgreed, finish_cons, EndsAgreed]

/-- The states agree in what `CursorAgrees` looks at: `PHASE`, `CUR` and `TOTAL`. -/
def SameCount (s u : State) : Prop := s.phase = u.phase ∧ s.cur = u.cur ∧ s.total = u.total

/-- What a micro-operation does to `PHASE`, `CUR` and `TOTAL` depends on these three only. -/
theorem runMicroState_sameCount (m : Micro) {s u : State} (h : SameCount s u) :
    SameCount (runMicroState m s) (runMicroState m u) := by
  obtain ⟨hp, hc, ht⟩ := h
  cases m <;> simp [SameCount, runMicroState, hp, hc, ht]

theorem endsAgreed_of_sameCount {ms : List Micro} {s u : State} (h : SameCount s u) (hs : EndsAgreed ms s) :
    EndsAgreed ms u := by
  induction ms generalizing s u with
  | nil =>
    obtain ⟨hp, hc, ht⟩ := h
    rw [endsAgreed_nil, CursorAgrees] at hs ⊢
    rwa [← hp, ← hc, ← ht]
  | cons m ms ih => exact endsAgreed_cons.mpr (ih (runMicroState_sameCount m h) (endsAgreed_cons.mp hs))

/-- At a command boundary the invariant speaks of the state as it is. -/
theorem inv_iff_of_todo_nil {s : State} (h : s.todo = []) :
    Safety.Inv s ↔ s.buf.wf = true ∧ s.busy = false ∧ CursorAgrees s := by
  change s.buf.wf = true ∧ _ ∧ EndsAgreed s.todo s ↔ _
  simp [h, endsAgreed_nil]

theorem hardReset_inv {s : State} (hw : s.buf.wf = true) : Safety.Inv (hardReset s) :=
  (inv_iff_of_todo_nil rfl).mpr ⟨hw, rfl, fun _ => rfl⟩

/-- Settles O57: at reset nothing is left to do, and cursor and counter are both 0. -/
theorem invariantHoldsAtReset : Obligations.InvariantHoldsAtReset :=
  (inv_iff_of_todo_nil rfl).mpr ⟨rfl, rfl, fun _ => rfl⟩

/-- The invariant looks at the command port only through `BUSY`. -/
theorem inv_port {s : State} (h : Safety.Inv s) (l : List Event) (o : Option (BitVec 10)) :
    Safety.Inv { s with inbox := l, offered := o } := by
  obtain ⟨hw, hb, ht⟩ := h
  exact ⟨hw, hb, endsAgreed_of_sameCount (s := s) ⟨rfl, rfl, rfl⟩ ht⟩

/-- A completed micro-operation keeps the invariant: it was the first of those left to finish. -/
theorem advance_inv {s t : State} (h : Safety.Inv s) (hbusy : s.busy = true) (hst : advance s = .next t) :
    Safety.Inv t := by
  obtain ⟨hw, hb, ha⟩ := h
  obtain ⟨m, rest, htodo⟩ := List.exists_cons_of_ne_nil (hb.mp hbusy)
  rw [advance_cons htodo] at hst
  injection hst with hst
  obtain ⟨hbusy', htodo', -⟩ := runMicroState_port m { s with todo := rest, busy := !rest.isEmpty }
  rw [hst] at hbusy' htodo'
  refine ⟨hst ▸ runMicroState_wf m hw, by simp [hbusy', htodo'], ?_⟩
  rw [htodo] at ha
  rw [htodo', ← hst]
  exact endsAgreed_of_sameCount (runMicroState_sameCount (s := s) m ⟨rfl, rfl, rfl⟩) (endsAgreed_cons.mp ha)

theorem appendByte_cursorAgrees (d : Byte) {s : State} (hacc : s.phase = .acc) (h : CursorAgrees s) :
    CursorAgrees (appendByte d s) := by
  intro _
  rw [appendByte_cur, appendByte_total, h hacc, BitVec.setWidth_add _ _ (by decide)]
  rfl

/-- Every instruction keeps the agreement of the cursor with the counter (`spec/10_state.md` R32). -/
theorem exec_cursorAgrees {i : Instr} {s t : State} (h : CursorAgrees s) (hst : exec i s = .next t) :
    CursorAgrees t := by
  cases effect_of_exec hst with
  | new => exact fun _ => rfl
  | updb d hacc => exact appendByte_cursorAgrees d hacc h
  | fin => intro hp; simp at hp
  | finr => intro _; simp
  | update data ht => exact appendBytes_induction (fun d _ hacc hu => appendByte_cursorAgrees d hacc hu) ht h
  | hash => intro hp; simp at hp
  | _ => simpa [CursorAgrees] using h

theorem appendBytes_wf {data : List Byte} {s t : State} (h : s.buf.wf = true)
    (hst : appendBytes data s = .next t) : t.buf.wf = true :=
  appendBytes_induction (P := fun u => u.buf.wf = true) (fun d _ _ hu => appendByte_wf d hu) hst h

/-- Every instruction keeps the canonical form of the buffer. -/
theorem exec_wf {i : Instr} {s t : State} (h : s.buf.wf = true) (hst : exec i s = .next t) :
    t.buf.wf = true := by
  cases effect_of_exec hst with
  | updb d => exact appendByte_wf d h
  | fin => simpa using padMessage_wf h
  | finr => simpa using padMessage_wf h
  | pad => exact padMessage_wf h
  | update data ht => exact appendBytes_wf h ht
  | hash data hu => simpa using padMessage_wf (appendBytes_wf (s := reinitialise s) h hu)
  | _ => simpa using h

theorem todo_nil_of_ready {s : State} (h : Safety.Inv s) (hb : s.busy = false) : s.todo = [] := by
  obtain ⟨-, hbt, -⟩ := h
  simpa [hb] using hbt

/-- A command run as one transition keeps the invariant. -/
theorem exec_command_inv {w : BitVec 10} {s t : State} (h : Safety.Inv s) (hb : s.busy = false)
    (hst : exec (decodeCmd w) s = .next t) : Safety.Inv t := by
  have htodo := todo_nil_of_ready h hb
  obtain ⟨hw, -, ha⟩ := (inv_iff_of_todo_nil htodo).mp h
  obtain ⟨hb', htodo', -⟩ := exec_port hst
  exact (inv_iff_of_todo_nil (htodo'.trans htodo)).mpr
    ⟨exec_wf hw hst, hb'.trans hb, exec_cursorAgrees ha hst⟩

/-- All that the acceptance of a command can do when it is not refused. -/
theorem accept_eq_next {i : Instr} {s t : State} (h : accept i s = .next t) :
    (s.phase = .acc ∨ i = .new) ∧ t = beginPlan (plan i s) s := by
  have hs : s.phase = .acc ∨ i = .new := by
    by_cases hi : i = .new
    · exact .inr hi
    · rw [accept, if_neg hi] at h
      exact .inl (whileAccumulating_eq_next.mp h).1
  rw [accept_begins hs] at h
  injection h with h
  exact ⟨hs, h.symm⟩

/-- An accepted command keeps the invariant: its micro-operations will end where the command ends. -/
theorem accept_command_inv {w : BitVec 10} {s t : State} (h : Safety.Inv s) (hb : s.busy = false)
    (hst : accept (decodeCmd w) s = .next t) : Safety.Inv t := by
  obtain ⟨hw, -, ha⟩ := (inv_iff_of_todo_nil (todo_nil_of_ready h hb)).mp h
  obtain ⟨hs, rfl⟩ := accept_eq_next hst
  obtain ⟨ms, m, hplan, -⟩ := plan_snoc w s
  obtain ⟨u, hu⟩ := finish_next (plan (decodeCmd w) s) s
  have hends : EndsAgreed (plan (decodeCmd w) s) s :=
    ⟨u, hu, exec_cursorAgrees ha ((finish_plan w hs).symm.trans hu)⟩
  exact ⟨hw, by simp [hplan], endsAgreed_of_sameCount (s := s) ⟨rfl, rfl, rfl⟩ hends⟩

/-- What a step does once its event has left the port: hardware reset, nothing, a micro-operation of a busy
unit, or the acceptance or the whole of a command of a ready one. -/
inductive Transition (u : State) : State → Prop where
  | reset : Transition u (hardReset u)
  | hold : Transition u u
  | micro {t : State} (hb : u.busy = true) (h : advance u = .next t) : Transition u t
  | accepted {t : State} (w : BitVec 10) (hb : u.busy = false) (h : accept (decodeCmd w) u = .next t) : Transition u t
  | command {t : State} (w : BitVec 10) (hb : u.busy = false) (h : exec (decodeCmd w) u = .next t) : Transition u t

theorem transition_of_onEdge {e : Edge} {s t : State} (h : onEdge e s = .next t) :
    ∃ o, Transition { s with offered := o } t := by
  unfold onEdge at h
  generalize (if s.busy && e.valid then some e.cmd else none) = o at h
  dsimp only at h
  split_ifs at h with hr hh hb ha hv
  · injection h with h
    exact ⟨s.offered, h ▸ .reset⟩
  · exact ⟨o, .micro hb h⟩
  · injection h with h
    exact ⟨o, h ▸ .hold⟩
  · exact ⟨o, .accepted e.cmd (eq_false_of_ne_true hb) h⟩
  · injection h with h
    exact ⟨o, h ▸ .hold⟩

/-- All that a step can do. -/
theorem transition_of_step {s t : State} (h : step s = .next t) :
    ∃ l o, Transition { s with inbox := l, offered := o } t := by
  unfold step at h
  split at h
  · exact ⟨s.inbox, transition_of_onEdge h⟩
  · next later _ => exact ⟨later, transition_of_onEdge h⟩
  · next w later _ =>
    unfold onCommand at h
    split_ifs at h with hh hb
    · exact ⟨s.inbox, some w, .micro hb h⟩
    · exact ⟨later, none, .command w (eq_false_of_ne_true hb) h⟩

/-- Settles O58, by what a step can do. -/
theorem everyStepKeepsTheInvariant : Obligations.EveryStepKeepsTheInvariant := by
  intro s t hs h
  obtain ⟨l, o, htr⟩ := transition_of_step h
  have hinv := inv_port hs l o
  cases htr with
  | reset => exact hardReset_inv hinv.1
  | hold => exact hinv
  | micro hb hst => exact advance_inv hinv hb hst
  | accepted w hb hst => exact accept_command_inv hinv hb hst
  | command w hb hst => exact exec_command_inv hinv hb hst

/-! ### What the spec leaves open influences nothing -/

/-- The units hold the same message: they agree on `H`, `TOTAL`, `CUR` and the first `n` bytes of `BUF`. -/
structure SameMessage (n : Nat) (s t : State) : Prop where
  wf_left : s.buf.wf = true
  wf_right : t.buf.wf = true
  h : s.h = t.h
  total : s.total = t.total
  cur : s.cur = t.cur
  bytes : ∀ a, a < n → s.buf.read a = t.buf.read a

namespace SameMessage

/-- The byte stored at the cursor is one more byte the units agree on. -/
theorem storeByte {s t : State} (e : SameMessage s.cur.toNat s t) (d : Byte) :
    SameMessage (s.cur.toNat + 1) (storeByte d s) (storeByte d t) where
  wf_left := runMicroState_wf (.store d) e.wf_left
  wf_right := runMicroState_wf (.store d) e.wf_right
  h := e.h
  total := by simp [e.total]
  cur := e.cur
  bytes a ha := by
    rw [storeByte_write, storeByte_write, ← e.cur]
    by_cases hc : a = s.cur.toNat
    · rw [hc, Memory.read_write_same e.wf_left, Memory.read_write_same e.wf_right]
    · rw [Memory.read_write_other _ _ hc, Memory.read_write_other _ _ hc, e.bytes a (by omega)]

/-- Marker and zero fill make the bytes from the cursor up to `hi` the same. -/
theorem padTail {s t : State} (e : SameMessage s.cur.toNat s t) {hi : Nat} (hhi : hi ≤ blockBytes) :
    SameMessage hi (zeroTail hi (putMarker s)) (zeroTail hi (putMarker t)) where
  wf_left := zeroTail_wf (putMarker_wf e.wf_left) hhi
  wf_right := zeroTail_wf (putMarker_wf e.wf_right) hhi
  h := e.h
  total := e.total
  cur := e.cur
  bytes a ha := by
    have hc := s.cur.isLt
    have hfill : s.cur.toNat + 1 + (hi - (s.cur.toNat + 1)) ≤ blockBytes := by
      simp only [blockBytes] at hhi ⊢; omega
    rw [zeroTail_buf, zeroTail_buf, putMarker_cur, putMarker_cur, ← e.cur,
      read_zeroFill (putMarker_wf e.wf_left) hfill, read_zeroFill (putMarker_wf e.wf_right) hfill,
      putMarker_read e.wf_left, putMarker_read e.wf_right, ← e.cur]
    rcases lt_trichotomy a s.cur.toNat with hlt | heq | hgt
    · rw [e.bytes a hlt]
    · simp [heq]
    · rw [if_pos (by omega), if_pos (by omega)]

/-- The zero fill of a fresh block makes its first 56 bytes the same, whatever the units agreed on before. -/
theorem zeroHead {n : Nat} {s t : State} (e : SameMessage n s t) :
    SameMessage lenFieldPos (zeroHead s) (zeroHead t) where
  wf_left := zeroHead_wf e.wf_left
  wf_right := zeroHead_wf e.wf_right
  h := by simp [e.h]
  total := by simp [e.total]
  cur := by simp [e.cur]
  bytes a ha := by
    have hfill : 0 + lenFieldPos ≤ blockBytes := by decide
    rw [zeroHead_buf, zeroHead_buf, read_zeroFill e.wf_left hfill, read_zeroFill e.wf_right hfill,
      if_pos ⟨Nat.zero_le a, by omega⟩, if_pos ⟨Nat.zero_le a, by omega⟩]

/-- The length field is the same, so with it the whole block is. -/
theorem putLength {s t : State} (e : SameMessage lenFieldPos s t) :
    SameMessage blockBytes (putLength s) (putLength t) where
  wf_left := putLength_wf e.wf_left
  wf_right := putLength_wf e.wf_right
  h := e.h
  total := e.total
  cur := e.cur
  bytes a ha := by
    rw [putLength_read e.wf_left ha, putLength_read e.wf_right ha, e.total]
    split
    · next hlt => exact e.bytes a hlt
    · rfl

/-- A compression reads `H` and the 64 bytes of `BUF` only. -/
theorem compress {s t : State} (e : SameMessage blockBytes s t) :
    SameMessage blockBytes (compress s) (compress t) where
  wf_left := by rw [compress_buf]; exact e.wf_left
  wf_right := by rw [compress_buf]; exact e.wf_right
  h := by rw [compress_h, compress_h, e.h, block_congr e.bytes]
  total := by simp [e.total]
  cur := by simp [e.cur]
  bytes a ha := by simpa using e.bytes a ha

theorem bumpCursor {n : Nat} {s t : State} (e : SameMessage n s t) :
    SameMessage n (bumpCursor s) (bumpCursor t) :=
  { e with cur := by simp [e.cur] }

/-- With the cursor at 0 no byte of the buffer counts. -/
theorem clearCursor {n : Nat} {s t : State} (e : SameMessage n s t) :
    SameMessage (0#6).toNat (clearCursor s) (clearCursor t) :=
  { e with
    cur := rfl
    bytes := fun a ha => absurd ha (Nat.not_lt_zero a) }

/-- A unit that accumulates reads its buffer below the cursor only. -/
theorem appendByte {s t : State} (e : SameMessage s.cur.toNat s t) (d : Byte) :
    SameMessage (appendByte d s).cur.toNat (appendByte d s) (appendByte d t) := by
  have hstore := e.storeByte d
  by_cases hc : s.cur = 63#6
  · rw [show s.cur.toNat + 1 = blockBytes by rw [hc]; rfl] at hstore
    rw [appendByte_full d hc, appendByte_full d (e.cur ▸ hc), clearCursor_cur]
    exact hstore.compress.clearCursor
  · rw [appendByte_cur, show (s.cur + 1#6).toNat = s.cur.toNat + 1 by bv_omega, appendByte_notFull d hc,
      appendByte_notFull d (e.cur ▸ hc)]
    exact hstore.bumpCursor

/-- The padding reads its buffer below the cursor only. -/
theorem padMessage {s t : State} (e : SameMessage s.cur.toNat s t) :
    SameMessage blockBytes (padMessage s) (padMessage t) := by
  rcases Nat.lt_or_ge s.cur.toNat 56 with hc | hc
  · rw [padMessage_one (s := s) (by omega), padMessage_one (s := t) (by rw [← e.cur]; omega), padOneBlock,
      padOneBlock]
    exact (e.padTail (by decide)).putLength.compress
  · rw [padMessage_two hc, padMessage_two (e.cur ▸ hc), padTwoBlocks, padTwoBlocks]
    exact (e.padTail (Nat.le_refl _)).compress.zeroHead.putLength.compress

end SameMessage

/-- `SameButOpen` between two units with canonical buffers of which both or neither are ready, so that the host
sees the same. -/
structure Indistinguishable (s t : State) : Prop where
  phase : s.phase = t.phase
  busy : s.busy = t.busy
  dvalid : s.dvalid = t.dvalid
  digest : s.dvalid = true → s.digest = t.digest
  wf_left : s.buf.wf = true
  wf_right : t.buf.wf = true
  message : s.phase = .acc → SameMessage s.cur.toNat s t

namespace Indistinguishable

theorem of_sameButOpen {s t : State} (hs : s.buf.wf = true) (ht : t.buf.wf = true) (hb : s.busy = t.busy)
    (h : SameButOpen s t) : Indistinguishable s t := by
  obtain ⟨hphase, hdvalid, hdigest, hmsg⟩ := h
  refine ⟨hphase, hb, hdvalid, hdigest, hs, ht, fun hp => ?_⟩
  obtain ⟨hh, htotal, hcur, hbytes⟩ := hmsg hp
  exact ⟨hs, ht, hh, htotal, hcur, hbytes⟩

theorem sameButOpen {s t : State} (e : Indistinguishable s t) : SameButOpen s t :=
  ⟨e.phase, e.dvalid, e.digest, fun hp =>
    have m := e.message hp
    ⟨m.h, m.total, m.cur, m.bytes⟩⟩

theorem observe_eq {s t : State} (e : Indistinguishable s t) : observe s = observe t := by
  by_cases hv : s.dvalid = true
  · simp [observe, ready, digestPort, e.busy, e.digest hv, e.dvalid]
  · have hv' : t.dvalid ≠ true := e.dvalid ▸ hv
    simp [observe, ready, e.busy, hv, hv']

theorem reinitialise {s t : State} (e : Indistinguishable s t) :
    Indistinguishable (reinitialise s) (reinitialise t) :=
  { e with
    phase := rfl
    message := fun _ => ⟨e.wf_left, e.wf_right, rfl, rfl, rfl, fun a ha => absurd ha (Nat.not_lt_zero a)⟩ }

theorem appendByte {s t : State} (e : Indistinguishable s t) (hp : s.phase = .acc) (d : Byte) :
    Indistinguishable (appendByte d s) (appendByte d t) where
  phase := by simp [e.phase]
  busy := by rw [(appendByte_port d s).1, (appendByte_port d t).1, e.busy]
  dvalid := by simp [e.dvalid]
  digest hv := by simpa using e.digest (by simpa using hv)
  wf_left := appendByte_wf d e.wf_left
  wf_right := appendByte_wf d e.wf_right
  message _ := (e.message hp).appendByte d

/-- The digest is a function of the message; what is left of the message is open in phase `SPENT`. -/
theorem markSpent_finalise {s t : State} (e : Indistinguishable s t) (hp : s.phase = .acc) :
    Indistinguishable (markSpent (finalise s)) (markSpent (finalise t)) where
  phase := by simp
  busy := by simp [e.busy]
  dvalid := by simp
  digest _ := by simp [(e.message hp).padMessage.h]
  wf_left := by simpa using padMessage_wf e.wf_left
  wf_right := by simpa using padMessage_wf e.wf_right
  message hspent := by simp at hspent

end Indistinguishable

/-- The outcomes are indistinguishable states, or both are the refusal in phase `SPENT`. -/
def SameOutcome (r r' : Host.Outcome State Fault Refusal) : Prop :=
  (∃ s t, r = .next s ∧ r' = .next t ∧ Indistinguishable s t) ∨
    (r = .refused .consumed ∧ r' = .refused .consumed)

theorem sameOutcome_next {s t : State} (e : Indistinguishable s t) : SameOutcome (.next s) (.next t) :=
  .inl ⟨s, t, rfl, rfl, e⟩

theorem sameOutcome_whileAccumulating {s t : State} {k : State → State} (e : Indistinguishable s t)
    (hk : s.phase = .acc → Indistinguishable (k s) (k t)) :
    SameOutcome (whileAccumulating s k) (whileAccumulating t k) := by
  cases hp : s.phase with
  | acc =>
    rw [whileAccumulating_acc hp, whileAccumulating_acc (e.phase ▸ hp)]
    exact sameOutcome_next (hk hp)
  | spent => exact .inr ⟨whileAccumulating_spent hp k, whileAccumulating_spent (e.phase ▸ hp) k⟩

theorem sameOutcome_andThen {r r' : Host.Outcome State Fault Refusal}
    {k : State → Host.Outcome State Fault Refusal} (hr : SameOutcome r r')
    (hk : ∀ {s t}, Indistinguishable s t → SameOutcome (k s) (k t)) : SameOutcome (andThen r k) (andThen r' k) := by
  obtain ⟨s, t, rfl, rfl, e⟩ | ⟨rfl, rfl⟩ := hr
  · exact hk e
  · exact .inr ⟨rfl, rfl⟩

/-- A command cannot tell indistinguishable units apart. -/
theorem sameOutcome_exec_command (w : BitVec 10) {s t : State} (e : Indistinguishable s t) :
    SameOutcome (exec (decodeCmd w) s) (exec (decodeCmd w) t) := by
  rcases decodeCmd_cases w with hd | ⟨d, hd⟩ | hd | hd <;> rw [hd]
  · rw [exec_new, exec_new]
    exact sameOutcome_next e.reinitialise
  · rw [exec_updb, exec_updb]
    exact sameOutcome_whileAccumulating e fun hp => e.appendByte hp d
  · rw [exec_fin, exec_fin]
    exact sameOutcome_whileAccumulating e fun hp => e.markSpent_finalise hp
  · rw [exec_finr, exec_finr]
    exact sameOutcome_whileAccumulating e fun hp => (e.markSpent_finalise hp).reinitialise

theorem sameOutcome_execAll (ws : List (BitVec 10)) {s t : State} (e : Indistinguishable s t) :
    SameOutcome (execAll (ws.map decodeCmd) s) (execAll (ws.map decodeCmd) t) := by
  induction ws generalizing s t with
  | nil => exact sameOutcome_next e
  | cons w ws ih => exact sameOutcome_andThen (sameOutcome_exec_command w e) ih

/-- Settles O60: indistinguishable units stay so under every command, and the stream runs as its commands. -/
theorem openValuesInfluenceNothing : Obligations.OpenValuesInfluenceNothing := by
  intro ws s t hs ht hbs hbt h
  have e := Indistinguishable.of_sameButOpen (s := { s with inbox := [] }) (t := { t with inbox := [] }) hs ht
    (hbs.1.trans hbt.1.symm) h
  rw [run_commands ws hbs, run_commands ws hbt]
  exact (sameOutcome_execAll ws e).imp_left fun ⟨s', t', h1, h2, e'⟩ =>
    ⟨s', t', h1, h2, e'.sameButOpen, congrArg Outputs.digest e'.observe_eq⟩

end Sys2Proof.Proofs.ArchState
end

section
/-! The obligations of `spec/20_memory.md`: the constant ROMs, the word view of the buffer, and the length
field. -/

namespace Sys2Proof.Proofs.MemoryMap

open Sys2Proof.Machine
open Sys2Proof.Proofs.Scope (two_pow_eight_mul)
open Sys2Proof.Proofs.ArchState (toNat_append_word)

/-- Settles O10: all 64 entries of both ROMs, compared with the printed tables. -/
theorem constantTablesHoldThePrintedValues : Obligations.ConstantTablesHoldThePrintedValues := by
  refine fun fs j => ⟨?kRom, ?sRom⟩
  case kRom => revert fs j; decide
  case sRom => revert fs j; decide

/-! ### The word view of the buffer -/

theorem memRead_lt (m : Memory) (a n : Nat) : memRead m a n < 256 ^ n := by
  induction n generalizing a with
  | zero => simp [memRead]
  | succ n ih =>
    have hbyte := (m.read a).isLt
    have hrest := ih (a + 1)
    rw [memRead, pow_succ']
    omega

/-- A longer read is the read of its first `i` bytes and, above them, of the bytes that follow. -/
theorem memRead_add (m : Memory) (a i n : Nat) :
    memRead m a (i + n) = memRead m a i + 256 ^ i * memRead m (a + i) n := by
  induction i generalizing a with
  | zero => simp [memRead]
  | succ i ih =>
    rw [Nat.add_right_comm, memRead, ih, memRead, pow_succ', Nat.add_assoc a 1 i, Nat.add_comm 1 i]
    ring

/-- Four bytes fill a schedule word exactly: nothing is cut off. -/
theorem schedWord_toNat (m : Memory) (g : BitVec 4) : (schedWord m g).toNat = memRead m (4 * g.toNat) 4 :=
  (BitVec.toNat_ofNat _ 32).trans (Nat.mod_eq_of_lt (memRead_lt m _ 4))

/-- Settles O13: the word loses no bit of the four bytes, whose weighted sum `MemRead` is. -/
theorem scheduleWordIsLittleEndian : Obligations.ScheduleWordIsLittleEndian := by
  intro m g
  rw [schedWord_toNat]
  simp only [memRead, Nat.add_assoc, Nat.reduceAdd]
  omega

/-! ### The length field -/

/-- The words 14 and 15 together are the eight bytes of the length field. -/
theorem schedWord_append_length (m : Memory) :
    schedWord m 15#4 ++ schedWord m 14#4 = BitVec.ofNat 64 (memRead m lenFieldPos lenFieldBytes) := by
  have hlow : (schedWord m 14#4).toNat = memRead m lenFieldPos 4 := schedWord_toNat m 14#4
  have hhigh : (schedWord m 15#4).toNat = memRead m (lenFieldPos + 4) 4 := schedWord_toNat m 15#4
  have hlt : memRead m lenFieldPos lenFieldBytes < 2 ^ 64 := memRead_lt m lenFieldPos lenFieldBytes
  apply BitVec.eq_of_toNat_eq
  rw [toNat_append_word, hlow, hhigh, BitVec.toNat_ofNat, Nat.mod_eq_of_lt hlt]
  exact (memRead_add m lenFieldPos 4 4).symm

/-- `L` as a number is `TOTAL` shifted left by three in 64 bits. -/
theorem ofNat_bitLength (total : BitVec 64) : BitVec.ofNat 64 (bitLength total) = total <<< 3 := by
  apply BitVec.eq_of_toNat_eq
  simp [bitLength, Nat.shiftLeft_eq]

/-- After the padding the length field holds `L` (`spec/20_memory.md` R59). -/
theorem padMessage_buf_length_byte {s : State} (hw : s.buf.wf = true) {k : Nat} (hk : k < lenFieldBytes) :
    (padMessage s).buf.read (lenFieldPos + k) = BitVec.ofNat 8 (bitLength s.total / 256 ^ k) := by
  obtain ⟨u, hu, htotal, hbuf⟩ := padMessage_buf hw
  rw [hbuf, putLength_buf, htotal]
  exact read_memWrite_inside hu _ hk (by decide)

theorem padMessage_buf_length_words {s : State} (hw : s.buf.wf = true) :
    schedWord (padMessage s).buf 15#4 ++ schedWord (padMessage s).buf 14#4 = s.total <<< 3 := by
  obtain ⟨u, hu, htotal, hbuf⟩ := padMessage_buf hw
  have hL : bitLength s.total < 256 ^ lenFieldBytes := Nat.mod_lt _ (by decide)
  rw [schedWord_append_length, hbuf, putLength_buf, htotal, memRead_memWrite hu _ (by decide), Nat.mod_eq_of_lt hL,
    ofNat_bitLength]

/-- Settles O31: the last write of `PAD` is the length field, in both cases; M[14] and M[15] are its halves. -/
theorem lengthFieldIsTheBitLength : Obligations.LengthFieldIsTheBitLength := by
  intro s hw
  have hwords := padMessage_buf_length_words hw
  refine ⟨padMessage s, exec_pad s, fun k hk => ?_, ?_, ?_⟩
  · rw [two_pow_eight_mul]
    exact padMessage_buf_length_byte hw hk
  · rw [← hwords, BitVec.extractLsb'_append_eq_right]
  · rw [← hwords, BitVec.extractLsb'_append_eq_left]

end Sys2Proof.Proofs.MemoryMap
end

section
/-! The obligations of `spec/30_encoding.md`: what the words decode to, what a step does with a word, and an
accepted command edge by edge. -/

namespace Sys2Proof.Proofs.Encoding

open Sys2Proof.Machine Sys2Proof.Safety
open Sys2Proof.Laws.Canonical (decode_updb)

/-! ### The two formats -/

theorem twoBits_cases (x : BitVec 2) : x = 0b00#2 ∨ x = 0b01#2 ∨ x = 0b10#2 ∨ x = 0b11#2 := by
  revert x; decide

/-- The masks of R86 and R90 keep the two upper bits. -/
theorem append_and_upperMask {n : Nat} (x : BitVec 2) (y : BitVec n) :
    (x ++ y) &&& (0b11#2 ++ 0#n) = x ++ 0#n := by
  rw [BitVec.and_append, BitVec.and_zero, show 0b11#2 = BitVec.allOnes 2 from rfl, BitVec.and_allOnes]

/-- Settles O2: the mask leaves the two `op` bits, and each of their four values its command. -/
theorem commandWordsDecodeByTheirOpBits : Obligations.CommandWordsDecodeByTheirOpBits := by
  intro op data
  have hop : (op ++ data) &&& 0x300#10 = op ++ 0#8 := append_and_upperMask op data
  have hdata : cmdData (op ++ data) = data := BitVec.setWidth_append_eq_right
  rw [decode, decodeCmd, hop, hdata]
  rcases twoBits_cases op with rfl | rfl | rfl | rfl <;> rfl

/-- The `FS` bits of a round control word select the row (`spec/30_encoding.md` R90). -/
theorem decode_rnd_append (fs : BitVec 2) (j : BitVec 4) :
    decode (.rnd (fs ++ j)) =
      (if fs = 0b00#2 then .rndF j else if fs = 0b01#2 then .rndG j
       else if fs = 0b10#2 then .rndH j else .rndI j) := by
  have hfs : (fs ++ j) &&& 0x30#6 = fs ++ 0#4 := append_and_upperMask fs j
  have hj : rndJ (fs ++ j) = j := BitVec.setWidth_append_eq_right
  rw [decode, decodeRnd, hfs, hj]
  rcases twoBits_cases fs with rfl | rfl | rfl | rfl <;> rfl

/-- Settles O3, by the four values of `FS`. -/
theorem roundWordsDecodeByTheirSelectBits : Obligations.RoundWordsDecodeByTheirSelectBits := fun j =>
  ⟨decode_rnd_append 0b00#2 j, decode_rnd_append 0b01#2 j, decode_rnd_append 0b10#2 j, decode_rnd_append 0b11#2 j⟩

/-- The canonical word of `UPDB d` is `0x100 + d` (`spec/30_encoding.md` R102). -/
theorem updbWord_eq_add (d : Byte) : 0b01#2 ++ d = 0x100#10 + d.setWidth 10 := by
  apply BitVec.eq_of_toNat_eq
  rw [BitVec.toNat_append, ← Nat.shiftLeft_add_eq_or_of_lt d.isLt]
  have hd := d.isLt
  simp
  omega

/-- Settles O4: the words compared, `UPDB d` for every `d` as a sum. -/
theorem writtenOutWordsDecode : Obligations.WrittenOutWordsDecode := by
  have hupdb : ∀ d : Byte, encode (.updb d) = [.cmd (0x100#10 + d.setWidth 10)] := fun d => by
    rw [encode, updbWord_eq_add]
  refine ⟨rfl, hupdb _, hupdb _, hupdb _, rfl, rfl, hupdb, ?_⟩
  decide

/-! ### Decoding what was encoded -/

/-- Reading the container of an encoded word gives the word back. -/
theorem codeOfBytes_bytes (c : Code) : codeOfBytes c.bytes = .ok c := by
  cases c with
  | cmd w =>
    have hw := w.isLt
    have hval : w.toNat % 256 + 256 * (w.toNat / 256 % 256) = w.toNat := by omega
    simp [Code.bytes, codeOfBytes, hval, hw]
  | rnd w =>
    have hw := w.isLt
    have hval : w.toNat % 256 = w.toNat := by omega
    simp [Code.bytes, codeOfBytes, hval, hw]

theorem decodeBytes_bytes (c : Code) : decodeBytes c.bytes = .ok (decode c) := by
  rw [decodeBytes, codeOfBytes_bytes, Except.map]

/-- A run of `UPDB` words decodes to the run of `UPDB` (`spec/30_encoding.md` R100). -/
theorem decode_updbWords (data : List Byte) :
    (data.map fun d => Code.cmd (0b01#2 ++ d)).map decode = data.map .updb := by
  rw [List.map_map]
  exact List.map_congr_left fun d _ => decode_updb d

/-- The words of an instruction decode to the instructions they stand for. -/
theorem map_decode_encode (i : Instr) : (encode i).map decode = expansion i := by
  cases i with
  | new => rfl
  | updb d => exact decode_updbWords [d]
  | fin => rfl
  | finr => rfl
  | rndF j => exact congrArg (fun x => [x]) (decode_rnd_append 0b00#2 j)
  | rndG j => exact congrArg (fun x => [x]) (decode_rnd_append 0b01#2 j)
  | rndH j => exact congrArg (fun x => [x]) (decode_rnd_append 0b10#2 j)
  | rndI j => exact congrArg (fun x => [x]) (decode_rnd_append 0b11#2 j)
  | update data => exact decode_updbWords data
  | hash data =>
    rw [encode, List.map_append, List.map_cons, decode_updbWords]
    rfl
  | _ => rfl

/-- Settles O1: the words decode to the expansion, and the containers add nothing. -/
theorem decodeOfEncodeIsTheInstruction : Obligations.DecodeOfEncodeIsTheInstruction := by
  intro i _
  refine ⟨map_decode_encode i, ?_⟩
  rw [← map_decode_encode i, List.map_map]
  exact List.map_congr_left fun c _ => congrArg Except.toOption (decodeBytes_bytes c)

/-! ### A step and the word it runs -/

/-- Settles O49: the word held before is the word offered, so the handshake stands and the command runs. -/
theorem stepRunsTheCommandWord : Obligations.StepRunsTheCommandWord := fun s w later hb ho =>
  step_command (s := { s with inbox := .command w :: later }) hb ho rfl

/-- Settles O50: the edge completes the round in progress, whose control word is `RI`. -/
theorem stepRunsTheRoundWord : Obligations.StepRunsTheRoundWord := by
  intro s rest e later hb htodo ho hr ha
  rw [step_busy_edge hb hr (.inl ho), if_pos ha, advance]
  dsimp only
  rw [htodo]
  rfl

/-- A host that does not present what it holds is refused at the edge. -/
theorem onEdge_holdBroken {s : State} {e : Edge} (hr : e.rst = false) (hh : holdBroken e.valid e.cmd s = true) :
    onEdge e s = .refused .handshake := by
  simp [onEdge, hr, hh]

/-- Settles O54: `BUSY` plays no part in the test of the held word. -/
theorem brokenHandshakeIsRefused : Obligations.BrokenHandshakeIsRefused := by
  intro s v e later ho hr hbroken
  have hh : holdBroken e.valid e.cmd { s with inbox := later } = true := by
    rcases hbroken with hv | hc
    · simp [holdBroken, ho, hv]
    · simp [holdBroken, ho, hc]
  exact onEdge_holdBroken hr hh

/-- The index a round leaves: the next one, but after round 63 `RI` as it was (`spec/40_compression_core.md`
R128). -/
theorem nextRoundIndex_eq (i ri : BitVec 6) : nextRoundIndex i ri = if i = 63#6 then ri else i + 1#6 := by
  have hlast : i = 63#6 ↔ ¬ i.toNat < 63 := by revert i; decide
  simp only [nextRoundIndex, hlast, ite_not]

/-- Settles O15: a round row reads `RI` for nothing but the value it keeps after the last round. -/
theorem roundRowUsesTheWordItIsGiven : Obligations.RoundRowUsesTheWordItIsGiven := by
  intro s w
  refine ⟨_, _, exec_decode_rnd w s, exec_decode_rnd w { s with ri := w }, ?_⟩
  rw [← nextRoundIndex_eq]
  rfl

/-! ### Words of the opcode table -/

/-- What a table word decodes to is what the encoded word it stands for decodes to. -/
theorem decodeTableWord_eq_some {nbits w : Nat} {i : Instr} :
    decodeTableWord nbits w = some i ↔ ∃ c, codeOfTable nbits w = .ok c ∧ decode c = i := by
  rw [decodeTableWord]
  cases codeOfTable nbits w <;> simp [Except.toOption]

theorem withFetchWord_of_ok {nbits w : Nat} {c : Code} (h : codeOfTable nbits w = .ok c) (s : State) :
    s.withFetchWord nbits w = placeCode c s := by
  rw [State.withFetchWord, placeTableWord, h]

/-- A table word of two bytes is a command word. -/
theorem codeOfTable_two_bytes {w : Nat} {c : Code} (h : codeOfTable 16 w = .ok c) : ∃ v, c = .cmd v := by
  simp only [codeOfTable, bytesOfNat, codeOfBytes] at h
  split_ifs at h
  exact ⟨_, (Except.ok.inj h).symm⟩

/-- A table word of one byte is a round control word, with its own bits. -/
theorem codeOfTable_one_byte {w : Nat} {c : Code} (h : codeOfTable 8 w = .ok c) : c = .rnd (BitVec.ofNat 6 w) := by
  simp only [codeOfTable, bytesOfNat, codeOfBytes] at h
  split_ifs at h with hw
  have hbyte : (BitVec.ofNat 8 w).toNat = w := (BitVec.toNat_ofNat w 8).trans (Nat.mod_eq_of_lt hw)
  rw [← Except.ok.inj h, hbyte]

/-- Settles O51: a placed command word is the next event of a ready unit, a placed round word the `RI` of the
round in progress. -/
theorem stepRunsThePlacedTableWord : Obligations.StepRunsThePlacedTableWord := by
  intro s w i
  refine ⟨fun h => ?_, fun h => ?_⟩
  · obtain ⟨c, hc, rfl⟩ := decodeTableWord_eq_some.mp h
    obtain ⟨v, rfl⟩ := codeOfTable_two_bytes hc
    rw [withFetchWord_of_ok hc]
    exact step_command (s := placeCode (.cmd v) s) rfl (.inl rfl) rfl
  · obtain ⟨c, hc, rfl⟩ := decodeTableWord_eq_some.mp h
    obtain rfl := codeOfTable_one_byte hc
    rw [withFetchWord_of_ok hc]
    exact stepRunsTheRoundWord (placeCode (.rnd (BitVec.ofNat 6 w)) s) s.todo idleEdge s.inbox rfl rfl rfl rfl rfl

/-! ### An accepted command, edge by edge -/

/-- The unit with the micro-operations `ms` left to do, and `BUSY` saying so. -/
def inProgress (ms : List Micro) (s : State) : State := { s with todo := ms, busy := !ms.isEmpty }

theorem inProgress_nil {s : State} (h : AtBoundary s) : inProgress [] s = s := by
  obtain ⟨hb, ht, -⟩ := h
  cases s; cases hb; cases ht; rfl

/-- With nothing presented, a step of a busy unit completes the micro-operation in progress. -/
theorem step_idle_busy {s : State} (hb : s.busy = true) (ho : s.offered = none) (hi : s.inbox = []) :
    step s = advance s := by
  have hheld : ({ s with busy := true, offered := none, inbox := [] } : State) = s := by
    cases s; cases hb; cases ho; cases hi; rfl
  simp [step, hi, onEdge, idleEdge, holdBroken, ho, hb, hheld]

/-- What is left to do has no influence on a micro-operation. -/
theorem runMicroState_inProgress (m : Micro) (ms : List Micro) (s : State) :
    runMicroState m (inProgress ms s) = inProgress ms (runMicroState m s) := by
  obtain ⟨-, -, hoffered, -⟩ := runMicroState_port m s
  calc runMicroState m (inProgress ms s)
      = { runMicroState m s with busy := !ms.isEmpty, todo := ms, offered := s.offered } :=
        runMicroState_comm m s (!ms.isEmpty) ms s.offered
    _ = inProgress ms (runMicroState m s) := by rw [← hoffered]; rfl

theorem step_inProgress (m : Micro) (ms : List Micro) {s : State} (ho : s.offered = none) (hi : s.inbox = []) :
    step (inProgress (m :: ms) s) = .next (inProgress ms (runMicroState m s)) := by
  rw [step_idle_busy (s := inProgress (m :: ms) s) rfl ho hi, advance_cons rfl, ← runMicroState_inProgress]
  rfl

/-- As many steps as micro-operations finish them, and leave the rest of the plan to do. -/
theorem runSteps_inProgress (ms rest : List Micro) {s : State} (ho : s.offered = none) (hi : s.inbox = []) :
    runSteps ms.length (inProgress (ms ++ rest) s) = mapNext (inProgress rest) (finish ms s) := by
  induction ms generalizing s with
  | nil => rfl
  | cons m ms ih =>
    obtain ⟨-, -, hoffered, hinbox, -⟩ := runMicroState_port m s
    rw [List.length_cons, runSteps, List.cons_append, step_inProgress m _ ho hi, andThen_next, finish_cons,
      ih (hoffered.trans ho) (hinbox.trans hi)]

/-- Micro-operations that do not write the digest outputs leave them. -/
theorem finish_digest {ms : List Micro} {s t : State} (hms : ∀ m ∈ ms, ¬ writesDigest m)
    (h : finish ms s = .next t) : t.digest = s.digest ∧ t.dvalid = s.dvalid := by
  induction ms generalizing s with
  | nil => cases h; exact ⟨rfl, rfl⟩
  | cons m ms ih =>
    rw [finish_cons] at h
    obtain ⟨hm, hrest⟩ := List.forall_mem_cons.mp hms
    obtain ⟨hdigest, hdvalid⟩ := runMicroState_digest hm s
    obtain ⟨ihdigest, ihdvalid⟩ := ih hrest h
    exact ⟨ihdigest.trans hdigest, ihdvalid.trans hdvalid⟩

/-- No instruction takes a unit away from its command boundary. -/
theorem exec_atBoundary {i : Instr} {s t : State} (hs : AtBoundary s) (h : exec i s = .next t) : AtBoundary t := by
  obtain ⟨hb, ht, ho⟩ := hs
  obtain ⟨hbusy, htodo, hoffered, -⟩ := exec_port h
  exact ⟨hbusy.trans hb, htodo.trans ht, hoffered.trans ho⟩

/-- A consumed unit refuses every command but `NEW`, at the port and as a whole alike. -/
theorem command_spent (w : BitVec 10) {s : State} (hp : s.phase = .spent) (hn : decodeCmd w ≠ .new) :
    accept (decodeCmd w) s = .refused .consumed ∧ exec (decodeCmd w) s = .refused .consumed := by
  refine ⟨by rw [accept, if_neg hn, whileAccumulating_spent hp], ?_⟩
  rcases decodeCmd_cases w with hd | ⟨d, hd⟩ | hd | hd
  · exact absurd hd hn
  · rw [hd, exec_updb, whileAccumulating_spent hp]
  · rw [hd, exec_fin, whileAccumulating_spent hp]
  · rw [hd, exec_finr, whileAccumulating_spent hp]

/-- A command's plan is never empty, so its acceptance leaves a unit that is busy with it. -/
theorem beginPlan_command (w : BitVec 10) (s : State) :
    beginPlan (plan (decodeCmd w) s) s = inProgress (plan (decodeCmd w) s) s := by
  obtain ⟨ms, m, hplan, -⟩ := plan_snoc w s
  rw [inProgress, beginPlan, hplan]
  simp

/-- After the acceptance the steps of the whole plan end as the command; a refused acceptance is a refused
command. -/
theorem accept_then_runSteps (w : BitVec 10) {s : State} (hs : AtBoundary s) (hi : s.inbox = []) :
    andThen (accept (decodeCmd w) s) (runSteps (plan (decodeCmd w) s).length) = exec (decodeCmd w) s := by
  by_cases h : s.phase = .acc ∨ decodeCmd w = .new
  · have ⟨_, _, hoffered⟩ := hs
    have hfin := finish_plan w h
    obtain ⟨t, ht⟩ := finish_next (plan (decodeCmd w) s) s
    have hexec := hfin.symm.trans ht
    have hrun := runSteps_inProgress (plan (decodeCmd w) s) [] hoffered hi
    rw [List.append_nil, ht, mapNext_next, inProgress_nil (exec_atBoundary hs hexec)] at hrun
    rw [accept_begins h, andThen_next, beginPlan_command, hrun, hexec]
  · obtain ⟨hacc, hnew⟩ := not_or.mp h
    have hspent : s.phase = .spent := by
      cases hp : s.phase with
      | acc => exact absurd hp hacc
      | spent => rfl
    obtain ⟨haccept, hexec⟩ := command_spent w hspent hnew
    rw [haccept, andThen_refused, hexec]

/-- Until its last micro-operation a command keeps the unit busy and the digest outputs as they were. -/
theorem runSteps_before_plan_ends (w : BitVec 10) {s : State} (hs : AtBoundary s) (hi : s.inbox = []) {k : Nat}
    (hk : k < (plan (decodeCmd w) s).length) :
    ∃ t, runSteps k (inProgress (plan (decodeCmd w) s) s) = .next t ∧
      t.busy = true ∧ t.digest = s.digest ∧ t.dvalid = s.dvalid := by
  obtain ⟨-, -, hoffered⟩ := hs
  obtain ⟨ms, m, hplan, hms⟩ := plan_snoc w s
  rw [hplan, List.length_append, List.length_singleton] at hk
  have hlen : (ms.take k).length = k := List.length_take_of_le (by omega)
  have hsplit : ms.take k ++ (ms.drop k ++ [m]) = plan (decodeCmd w) s := by
    rw [← List.append_assoc, List.take_append_drop, hplan]
  obtain ⟨t, ht⟩ := finish_next (ms.take k) s
  obtain ⟨hdigest, hdvalid⟩ := finish_digest (fun m' h' => hms m' (List.mem_of_mem_take h')) ht
  have hrun := runSteps_inProgress (ms.take k) (ms.drop k ++ [m]) hoffered hi
  rw [hlen, hsplit, ht, mapNext_next] at hrun
  exact ⟨_, hrun, by simp [inProgress], hdigest, hdvalid⟩

/-- Settles O52: an accepted command runs as its plan, step by step, and the plan as the command; a command that
is not accepted is refused both ways. -/
theorem edgeByEdgeRunEqualsTheAtomicCommand : Obligations.EdgeByEdgeRunEqualsTheAtomicCommand := by
  intro s w adv hs offer
  have hbound : AtBoundary { s with inbox := [] } := hs
  have hplan : plan (decode (.cmd w)) s = plan (decodeCmd w) { s with inbox := [] } := (plan_congr w rfl).symm
  have hoffer : step offer = accept (decodeCmd w) { s with inbox := [] } := step_offer hs rfl rfl
  have hrun : ∀ k, runSteps (1 + k) offer = andThen (accept (decodeCmd w) { s with inbox := [] }) (runSteps k) :=
    fun k => by rw [Nat.add_comm, runSteps, hoffer]
  rw [hplan]
  refine ⟨?_, fun h => ⟨hoffer.trans (accept_begins h), fun k hk => ?_⟩⟩
  · rw [hrun]
    exact accept_then_runSteps w hbound rfl
  · rw [hrun, accept_begins (i := decodeCmd w) (s := { s with inbox := [] }) h, andThen_next, beginPlan_command]
    exact runSteps_before_plan_ends w hbound rfl hk

end Sys2Proof.Proofs.Encoding
end

section
/-! The obligations of `spec/40_compression_core.md`: the combinational operators, the round steps, and
`COMPRESS`. -/

namespace Sys2Proof.Proofs.CompressionCore

open Sys2Proof.Machine Sys2Proof.Safety
open Sys2Proof.Proofs.Encoding (twoBits_cases decode_rnd_append)
open Sys2Proof.Proofs.MemoryMap (constantTablesHoldThePrintedValues)

/-! ### COMPRESS and its steps -/

theorem execAll_append (is js : List Instr) (s : State) :
    execAll (is ++ js) s = andThen (execAll is s) (execAll js) := by
  induction is generalizing s with
  | nil => rfl
  | cons i is ih =>
    rw [List.cons_append, execAll, execAll, andThen_assoc]
    exact congrArg (andThen (exec i s)) (funext ih)

/-- The round words from index `i` on, each run as its own row, are the round steps from index `i` on: the word
that comes next is the one `RI` holds. -/
theorem execAll_roundWords (n i : Nat) (h : i + n ≤ 64) (s : State) (hri : n ≠ 0 → s.ri = BitVec.ofNat 6 i) :
    execAll ((List.range' i n).map fun k => decode (.rnd (BitVec.ofNat 6 k))) s = .next (roundSteps n s) := by
  induction n generalizing i s with
  | zero => rfl
  | succ n ih =>
    have hri := hri (Nat.succ_ne_zero n)
    have hnext : n ≠ 0 → (roundStep s).ri = BitVec.ofNat 6 (i + 1) := fun hn => by
      rw [roundStep_ri, hri, nextRoundIndex_ofNat (by omega)]
    rw [List.range'_succ, List.map_cons, execAll, ← hri, exec_decode_ri, andThen_next, ih _ (by omega) _ hnext,
      roundSteps]

/-- Settles O22: `SEED` clears `RI`, so the 64 words are the 64 round steps. -/
theorem compressRunsItsSteps : Obligations.CompressRunsItsSteps := by
  intro s
  have hrounds : execAll ((List.range 64).map fun i => decode (.rnd (BitVec.ofNat 6 i))) (seedWork s) =
      .next (roundSteps rounds (seedWork s)) := by
    rw [List.range_eq_range']
    exact execAll_roundWords 64 0 (by decide) _ fun _ => rfl
  rw [exec_compress, compress_steps, List.cons_append, execAll, exec_seed, andThen_next, execAll_append, hrounds,
    andThen_next, execAll, exec_feedfwd, andThen_next, execAll]

/-- Settles O23: the value of `H`, and the frame. -/
theorem compressIsAPureFunction : Obligations.CompressIsAPureFunction := fun s =>
  ⟨compress s, exec_compress s, compress_h s, compress_frame s, fun a => by rw [compress_buf]⟩

/-! ### The combinational operators -/

/-- Settles O5: `ADD32` is the addition of bit vectors. -/
theorem additionIsModulo32Bits : Obligations.AdditionIsModulo32Bits := by
  intro x y z
  simp only [add32_eq]
  exact ⟨BitVec.toNat_add x y, BitVec.add_comm x y, BitVec.add_assoc x y z⟩

/-- R111's formula on numbers. -/
theorem rotl32_toNat (x : Word) {s : Nat} (hs : s ≤ 31) :
    (rotl32 x s).toNat = (x.toNat * 2 ^ s % 2 ^ 32) ||| (x.toNat / 2 ^ (32 - s)) := by
  rw [rotl32, Nat.mod_eq_of_lt (by omega : s < 32), BitVec.toNat_or, BitVec.toNat_shiftLeft,
    BitVec.toNat_ushiftRight, Nat.shiftLeft_eq, Nat.shiftRight_eq_div_pow]

/-- Bit `k` moves to bit `(k + s) mod 32`: the bits below `32 - s` go up by `s`, the others go around. -/
theorem rotl32_getLsbD (x : Word) {s k : Nat} (hs : s ≤ 31) (hk : k < 32) :
    (rotl32 x s).getLsbD ((k + s) % 32) = x.getLsbD k := by
  rw [rotl32_eq, BitVec.getLsbD_rotateLeft, Nat.mod_eq_of_lt (by omega : s < 32)]
  by_cases hlow : k + s < 32
  · rw [Nat.mod_eq_of_lt hlow]
    simp [hlow]
  · have haround : (k + s) % 32 = k + s - 32 := by omega
    have hbelow : k + s - 32 < s := by omega
    have hbit : 32 - s + (k + s - 32) = k := by omega
    rw [haround]
    simp [hbelow, hbit]

/-- Settles O6: the formula and the move of a bit. -/
theorem rotationMovesEveryBit : Obligations.RotationMovesEveryBit := fun x _ _ hs =>
  ⟨rotl32_toNat x hs, fun _ hk => rotl32_getLsbD x hs hk⟩

/-- Settles O7: the model's operators are those of bit vectors, whose bits are known. -/
theorem bitwiseOperatorsActPerBit : Obligations.BitwiseOperatorsActPerBit := by
  intro x y k hk
  refine ⟨?_, BitVec.getLsbD_and, BitVec.getLsbD_or, ?_⟩
  · rw [not32_eq, BitVec.getLsbD_not]
    simp [hk]
  · rw [xor32, BitVec.getLsbD_xor, Bool.bne_eq_xor]

theorem roundF_eq (b c d : Word) : roundF b c d = (b &&& c) ||| (~~~b &&& d) := by
  simp only [roundF, or32, and32, not32_eq]

theorem roundG_eq (b c d : Word) : roundG b c d = (d &&& b) ||| (~~~d &&& c) := by
  simp only [roundG, or32, and32, not32_eq]

theorem roundH_eq (b c d : Word) : roundH b c d = b ^^^ c ^^^ d := rfl

theorem roundI_eq (b c d : Word) : roundI b c d = c ^^^ (b ||| ~~~d) := by
  simp only [roundI, xor32, or32, not32_eq]

/-- Settles O9: each row drives its operator's value, and nothing else. -/
theorem operatorRowsDriveTheirValue : Obligations.OperatorRowsDriveTheirValue := by
  intro s x y b c d n
  simp only [exec_add32, exec_rotl32, exec_not32, exec_and32, exec_or32, exec_xor32, exec_fnF, exec_fnG, exec_fnH,
    exec_fnI, add32_eq, rotl32_eq, not32_eq, roundF_eq, roundG_eq, roundH_eq, roundI_eq]
  exact ⟨rfl, rfl, rfl, rfl, rfl, rfl, rfl, rfl, rfl, rfl⟩

/-! ### What a round index selects -/

/-- `i = 16*FS + J` (`spec/30_encoding.md` R95). -/
theorem toNat_append_step (fs : BitVec 2) (j : BitVec 4) : (fs ++ j).toNat = 16 * fs.toNat + j.toNat := by
  rw [BitVec.toNat_append, ← Nat.shiftLeft_add_eq_or_of_lt j.isLt, Nat.shiftLeft_eq, Nat.mul_comm]

/-- What the control word `w` of a round selects: the row `i`, the round function `fn`, the message word `g`, the
shift amount `n`, and the index `r` it leaves when `RI` is `w` (`spec/40_compression_core.md` R128). -/
structure Selects (w : BitVec 6) (i : Instr) (fn : Word → Word → Word → Word) (g n : Nat) (r : BitVec 6) : Prop where
  row : decode (.rnd w) = i
  function : selectFunction w = fn
  index : (messageIndex w).toNat = g
  amount : (sRom w).toNat = n
  next : nextRoundIndex w w = r

/-- Group 0 (`spec/40_compression_core.md` R130). -/
theorem selects_rndF (j : BitVec 4) :
    Selects (0b00#2 ++ j) (.rndF j) roundF j.toNat ([7, 12, 17, 22].getD (j.toNat % 4) 0) (0b00#2 ++ j + 1#6) := by
  have hw : (0b00#2 ++ j).toNat = j.toNat := by simp [toNat_append_step]
  exact {
    row := decode_rnd_append 0b00#2 j
    function := by rw [selectFunction, if_pos (by omega)]
    index := by rw [messageIndex_toNat, hw, if_pos (by omega)]
    amount := (constantTablesHoldThePrintedValues 0b00#2 j).2
    next := if_pos (by omega) }

/-- Group 1 (`spec/40_compression_core.md` R131). -/
theorem selects_rndG (j : BitVec 4) :
    Selects (0b01#2 ++ j) (.rndG j) roundG ((5 * (16 + j.toNat) + 1) % 16) ([5, 9, 14, 20].getD (j.toNat % 4) 0)
      (0b01#2 ++ j + 1#6) := by
  have hw : (0b01#2 ++ j).toNat = 16 + j.toNat := toNat_append_step 0b01#2 j
  exact {
    row := decode_rnd_append 0b01#2 j
    function := by rw [selectFunction, if_neg (by omega), if_pos (by omega)]
    index := by rw [messageIndex_toNat, hw, if_neg (by omega), if_pos (by omega)]
    amount := (constantTablesHoldThePrintedValues 0b01#2 j).2
    next := if_pos (by omega) }

/-- Group 2 (`spec/40_compression_core.md` R132). -/
theorem selects_rndH (j : BitVec 4) :
    Selects (0b10#2 ++ j) (.rndH j) roundH ((3 * (32 + j.toNat) + 5) % 16) ([4, 11, 16, 23].getD (j.toNat % 4) 0)
      (0b10#2 ++ j + 1#6) := by
  have hw : (0b10#2 ++ j).toNat = 32 + j.toNat := toNat_append_step 0b10#2 j
  exact {
    row := decode_rnd_append 0b10#2 j
    function := by rw [selectFunction, if_neg (by omega), if_neg (by omega), if_pos (by omega)]
    index := by rw [messageIndex_toNat, hw, if_neg (by omega), if_neg (by omega), if_pos (by omega)]
    amount := (constantTablesHoldThePrintedValues 0b10#2 j).2
    next := if_pos (by omega) }

/-- Group 3, whose last round keeps `RI` (`spec/40_compression_core.md` R133). -/
theorem selects_rndI (j : BitVec 4) :
    Selects (0b11#2 ++ j) (.rndI j) roundI (7 * (48 + j.toNat) % 16) ([6, 10, 15, 21].getD (j.toNat % 4) 0)
      (if j = 15#4 then 63#6 else 0b11#2 ++ j + 1#6) := by
  have hw : (0b11#2 ++ j).toNat = 48 + j.toNat := toNat_append_step 0b11#2 j
  exact {
    row := decode_rnd_append 0b11#2 j
    function := by rw [selectFunction, if_neg (by omega), if_neg (by omega), if_neg (by omega)]
    index := by rw [messageIndex_toNat, hw, if_neg (by omega), if_neg (by omega), if_neg (by omega)]
    amount := (constantTablesHoldThePrintedValues 0b11#2 j).2
    next := by
      by_cases hlast : j = 15#4
      · subst hlast; rfl
      · have hne : j.toNat ≠ 15 := fun h => hlast (BitVec.eq_of_toNat_eq h)
        rw [if_neg hlast, nextRoundIndex, if_pos (by omega)] }

/-- Settles O8: the selector by group, and each function bit by bit. -/
theorem roundFunctionsFollowTheirTruthTables : Obligations.RoundFunctionsFollowTheirTruthTables := by
  refine ⟨fun j => ⟨(selects_rndF j).function, (selects_rndG j).function, (selects_rndH j).function,
    (selects_rndI j).function⟩, fun b c d k hk => ?_⟩
  rw [roundF_eq, roundG_eq, roundH_eq, roundI_eq]
  refine ⟨?_, ?_, ?_, ?_⟩
  · simp only [BitVec.getLsbD_or, BitVec.getLsbD_and, BitVec.getLsbD_not, hk]
    cases b.getLsbD k <;> simp
  · simp only [BitVec.getLsbD_or, BitVec.getLsbD_and, BitVec.getLsbD_not, hk]
    cases d.getLsbD k <;> simp
  · simp only [BitVec.getLsbD_xor, Bool.bne_eq_xor]
  · simp [hk]

/-- Within a group the message index tells the steps apart, because 5, 3 and 7 are odd
(`spec/40_compression_core.md` R124). -/
theorem messageIndex_append_injective (fs : BitVec 2) :
    Function.Injective fun j : BitVec 4 => messageIndex (fs ++ j) := by
  intro j j' (h : messageIndex (fs ++ j) = messageIndex (fs ++ j'))
  have hnat := congrArg BitVec.toNat h
  apply BitVec.eq_of_toNat_eq
  rcases twoBits_cases fs with rfl | rfl | rfl | rfl
  · rwa [(selects_rndF j).index, (selects_rndF j').index] at hnat
  · rw [(selects_rndG j).index, (selects_rndG j').index] at hnat
    omega
  · rw [(selects_rndH j).index, (selects_rndH j').index] at hnat
    omega
  · rw [(selects_rndI j).index, (selects_rndI j').index] at hnat
    omega

/-- Settles O11: an injective map of the sixteen steps to the sixteen words takes every word once. -/
theorem messageIndexFollowsItsFormulas : Obligations.MessageIndexFollowsItsFormulas := by
  refine ⟨messageIndex_toNat, fun fs g => ?_⟩
  have hinj := messageIndex_append_injective fs
  obtain ⟨j, hj⟩ := Finite.injective_iff_surjective.mp hinj g
  exact ⟨j, hj, fun j' hj' => hinj (hj'.trans hj.symm)⟩

/-! ### The steps -/

/-- Settles O20: `exec_seed`, with the four words of `H` written out. -/
theorem seedLoadsTheWorkingRegisters : Obligations.SeedLoadsTheWorkingRegisters := exec_seed

/-- Settles O21: the four sums. -/
theorem feedForwardAddsAndCommits : Obligations.FeedForwardAddsAndCommits := by
  intro s
  simp only [exec_feedfwd, feedForward, add32_eq]

/-- The round of the word `RI`, in terms of what that word selects. -/
theorem exec_round {s : State} {w r : BitVec 6} {i : Instr} {fn : Word → Word → Word → Word} {g n : Nat}
    (hri : s.ri = w) (h : Selects w i fn g n r) :
    exec i s =
      .next { s with
        work := ⟨s.work.d,
          s.work.b + (fn s.work.b s.work.c s.work.d + s.work.a + kRom w
            + BitVec.ofNat 32 (memRead s.buf (4 * g) 4)).rotateLeft n,
          s.work.b, s.work.c⟩
        ri := r } := by
  obtain ⟨rfl, rfl, rfl, rfl, rfl⟩ := h
  subst hri
  simp only [exec_decode_ri, roundStep, roundWith, roundWords, schedWord, add32_eq, rotl32_eq]

/-- The round function by range of the index, in the operators of bit vectors. -/
theorem selectFunction_apply (i : BitVec 6) (b c d : Word) :
    selectFunction i b c d =
      if i.toNat < 16 then (b &&& c) ||| (~~~b &&& d)
      else if i.toNat < 32 then (d &&& b) ||| (~~~d &&& c)
      else if i.toNat < 48 then b ^^^ c ^^^ d
      else c ^^^ (b ||| ~~~d) := by
  rw [← roundF_eq, ← roundG_eq, ← roundH_eq, ← roundI_eq, selectFunction]
  split_ifs <;> rfl

/-- Settles O14: function and message word by range of `RI`. -/
theorem roundStepComputesTheNewWords : Obligations.RoundStepComputesTheNewWords := by
  intro s
  rw [exec_round rfl ⟨rfl, rfl, messageIndex_toNat s.ri, rfl, rfl⟩, selectFunction_apply, nextRoundIndex]

/-- Settles O16: the round of group 0. -/
theorem rndFStepUsesFAndWordI : Obligations.RndFStepUsesFAndWordI := by
  intro s j hri
  rw [hri, exec_round hri (selects_rndF j), roundF_eq]

/-- Settles O17: the round of group 1. -/
theorem rndGStepUsesGAndItsWord : Obligations.RndGStepUsesGAndItsWord := by
  intro s j hri
  rw [hri, exec_round hri (selects_rndG j), roundG_eq]

/-- Settles O18: the round of group 2. -/
theorem rndHStepUsesHAndItsWord : Obligations.RndHStepUsesHAndItsWord := by
  intro s j hri
  rw [hri, exec_round hri (selects_rndH j), roundH_eq]

/-- Settles O19: the round of group 3, whose last step keeps `RI`. -/
theorem rndIStepUsesIAndItsWord : Obligations.RndIStepUsesIAndItsWord := by
  intro s j hri
  rw [hri, exec_round hri (selects_rndI j), roundI_eq]

end Sys2Proof.Proofs.CompressionCore
end

section
/-! The obligations of `spec/41_streaming_accumulator.md`: `NEW`, `UPDB`, and `UPDATE` as a run of `UPDB`. -/

namespace Sys2Proof.Proofs.StreamingAccumulator

open Sys2Proof.Machine Sys2Proof.Safety
open Sys2Proof.Proofs.ArchState (appendBytes_keeps)

/-! ### The bytes that wait for a block -/

/-- `BUF[0..CUR]`: the bytes of the message no compression has consumed yet
(`spec/41_streaming_accumulator.md` R155). -/
def pending (s : State) : List Byte := (block s).take s.cur.toNat

theorem pending_length (s : State) : (pending s).length = s.cur.toNat := by
  have := s.cur.isLt
  simp only [pending, List.length_take, block_length, blockBytes]
  omega

theorem pending_of_cur_zero {s : State} (h : s.cur = 0#6) : pending s = [] := by
  simp [pending, h]

theorem appendByte_cur_notFull (d : Byte) {s : State} (h : s.cur ≠ 63#6) :
    (appendByte d s).cur.toNat = s.cur.toNat + 1 := by
  rw [appendByte_cur]; bv_omega

theorem appendByte_cur_full (d : Byte) {s : State} (h : s.cur = 63#6) : (appendByte d s).cur = 0#6 := by
  rw [appendByte_cur, h]; rfl

/-- The stored byte stands after the waiting ones. -/
theorem take_block_storeByte (d : Byte) {s : State} (hw : s.buf.wf = true) :
    (block (storeByte d s)).take (s.cur.toNat + 1) = pending s ++ [d] := by
  have hlt : s.cur.toNat < (block s).length := by simpa [blockBytes] using s.cur.isLt
  rw [block_storeByte d hw, List.take_add_one, List.take_set_of_le (Nat.le_refl _), List.getElem?_set_self hlt]
  rfl

/-- A stored byte that does not fill the block waits behind the others. -/
theorem pending_appendByte_notFull (d : Byte) {s : State} (hw : s.buf.wf = true) (h : s.cur ≠ 63#6) :
    pending (appendByte d s) = pending s ++ [d] := by
  rw [← take_block_storeByte d hw, pending, appendByte_cur_notFull d h, appendByte_notFull d h]
  rfl

theorem appendByte_h_notFull (d : Byte) {s : State} (h : s.cur ≠ 63#6) : (appendByte d s).h = s.h := by
  rw [appendByte_notFull d h, bumpCursor_h, storeByte_h]

/-- The byte that fills the block has it compressed (`spec/41_streaming_accumulator.md` R153). -/
theorem appendByte_h_full (d : Byte) {s : State} (hw : s.buf.wf = true) (h : s.cur = 63#6) :
    (appendByte d s).h = compressBlock s.h (pending s ++ [d]) := by
  have hblock : block (storeByte d s) = pending s ++ [d] := by
    rw [← take_block_storeByte d hw, h, List.take_of_length_le (by simp [blockBytes])]
  rw [appendByte_full d h, clearCursor_h, compress_h, storeByte_h, hblock]

theorem pending_appendByte_full (d : Byte) {s : State} (h : s.cur = 63#6) : pending (appendByte d s) = [] :=
  pending_of_cur_zero (appendByte_cur_full d h)

/-! ### Runs of `UPDB` -/

theorem appendBytes_nil_eq_next {s t : State} : appendBytes [] s = .next t ↔ s = t := by
  simp [appendBytes]

/-- A run that completes performed its first `UPDB`, in phase `ACC`, and then the others. -/
theorem appendBytes_cons_eq_next {d : Byte} {ds : List Byte} {s t : State} :
    appendBytes (d :: ds) s = .next t ↔ s.phase = .acc ∧ appendBytes ds (appendByte d s) = .next t := by
  simp only [appendBytes, andThen_eq_next, whileAccumulating_eq_next, and_assoc, exists_and_left, exists_eq_left']

theorem appendBytes_total {data : List Byte} {s t : State} (h : appendBytes data s = .next t) :
    t.total = s.total + BitVec.ofNat 64 data.length := by
  induction data generalizing s with
  | nil => obtain rfl := appendBytes_nil_eq_next.mp h; simp
  | cons d ds ih =>
    rw [ih (appendBytes_cons_eq_next.mp h).2, appendByte_total, List.length_cons, Nat.add_comm ds.length,
      BitVec.ofNat_add, BitVec.add_assoc]

theorem appendBytes_cur {data : List Byte} {s t : State} (h : appendBytes data s = .next t) :
    t.cur.toNat = (s.cur.toNat + data.length) % 64 := by
  induction data generalizing s with
  | nil => obtain rfl := appendBytes_nil_eq_next.mp h; exact (Nat.mod_eq_of_lt s.cur.isLt).symm
  | cons d ds ih =>
    rw [ih (appendBytes_cons_eq_next.mp h).2, appendByte_cur, List.length_cons]
    simp only [BitVec.toNat_add, BitVec.toNat_ofNat]
    omega

/-- Byte `k` of the run goes to address `(CUR + k) mod 64`; any other address reads as before. -/
theorem appendBytes_read_other {data : List Byte} {s t : State} (h : appendBytes data s = .next t) {a : Nat}
    (ha : ∀ k, k < data.length → a ≠ (s.cur.toNat + k) % 64) : t.buf.read a = s.buf.read a := by
  induction data generalizing s with
  | nil => obtain rfl := appendBytes_nil_eq_next.mp h; rfl
  | cons d ds ih =>
    have hfirst : a ≠ s.cur.toNat := by
      simpa [Nat.mod_eq_of_lt s.cur.isLt] using ha 0 (Nat.succ_pos _)
    have hrest : ∀ k, k < ds.length → a ≠ ((appendByte d s).cur.toNat + k) % 64 := fun k hk => by
      have := ha (k + 1) (Nat.succ_lt_succ hk)
      rw [appendByte_cur, BitVec.toNat_add, BitVec.toNat_ofNat]
      omega
    rw [ih (appendBytes_cons_eq_next.mp h).2 hrest, appendByte_buf, Memory.read_write_other _ _ hfirst]

/-- Only `H`, the counters, the buffer and scratch may differ after a run. -/
theorem appendBytes_frame {data : List Byte} {s t : State} (h : appendBytes data s = .next t) :
    t = { s with h := t.h, work := t.work, ri := t.ri, total := t.total, cur := t.cur, buf := t.buf } := by
  obtain ⟨hphase, hdigest, hdvalid⟩ := appendBytes_keeps h
  obtain ⟨hbusy, htodo, hoffered, hinbox, hwire⟩ := appendBytes_port h
  exact State.ext rfl rfl rfl rfl rfl hphase hdvalid hbusy hdigest rfl htodo hoffered hinbox hwire

/-- The chain over a block and more bytes compresses the block first. -/
theorem chainBlocks_block_append (k : Nat) (h : Quad) {bs : List Byte} (hlen : bs.length = blockBytes)
    (cs : List Byte) : chainBlocks (k + 1) h (bs ++ cs) = chainBlocks k (compressBlock h bs) cs := by
  rw [chainBlocks, List.take_left' hlen, List.drop_left' hlen]

/-- What a run does to the message: of the waiting bytes followed by the new ones, every full block is
compressed in turn, and the rest waits. -/
theorem appendBytes_blocks {data : List Byte} {s t : State} (hw : s.buf.wf = true)
    (h : appendBytes data s = .next t) :
    t.h = chainBlocks ((s.cur.toNat + data.length) / 64) s.h (pending s ++ data) ∧
    pending t = (pending s ++ data).drop (64 * ((s.cur.toNat + data.length) / 64)) := by
  induction data generalizing s with
  | nil =>
    obtain rfl := appendBytes_nil_eq_next.mp h
    simp [Nat.div_eq_of_lt s.cur.isLt, chainBlocks]
  | cons d ds ih =>
    obtain ⟨hh, hp⟩ := ih (appendByte_wf d hw) (appendBytes_cons_eq_next.mp h).2
    rw [hh, hp]
    by_cases hc : s.cur = 63#6
    · have hlen : (pending s ++ [d]).length = blockBytes := by simp [pending_length, hc, blockBytes]
      have hcount : (s.cur.toNat + (d :: ds).length) / 64 = ds.length / 64 + 1 := by simp [hc]; omega
      have hskip : 64 * (ds.length / 64 + 1) = (pending s ++ [d]).length + 64 * (ds.length / 64) := by
        rw [hlen, blockBytes]; omega
      rw [hcount, appendByte_cur_full d hc, appendByte_h_full d hw hc, pending_appendByte_full d hc,
        List.append_cons _ d ds, chainBlocks_block_append _ _ hlen, hskip, List.drop_length_add_append]
      simp
    · rw [pending_appendByte_notFull d hw hc, appendByte_h_notFull d hc, appendByte_cur_notFull d hc,
        ← List.append_cons, List.length_cons, Nat.add_assoc, Nat.add_comm 1]
      exact ⟨rfl, rfl⟩

/-- A run of `UPDB` as instructions. -/
theorem execAll_updb (data : List Byte) (s : State) : execAll (data.map .updb) s = appendBytes data s := by
  induction data generalizing s with
  | nil => rfl
  | cons d ds ih => rw [List.map_cons, execAll, exec_updb, appendBytes, funext ih]

/-- A run of `UPDATE`, chunk by chunk, is the run of `UPDB` of all their bytes. -/
theorem execAll_update (chunks : List (List Byte)) (s : State) :
    execAll (chunks.map .update) s = appendBytes chunks.flatten s := by
  induction chunks generalizing s with
  | nil => rfl
  | cons c cs ih =>
    rw [List.map_cons, execAll, exec_update, List.flatten_cons, appendBytes_append, funext ih]

/-! ### The obligations -/

/-- Settles O24: the writes of `NEW`, with `IV` written out. -/
theorem newMakesAFreshAccumulator : Obligations.NewMakesAFreshAccumulator := exec_new

/-- Settles O25, by whether the byte fills the block. -/
theorem updbAppendsOneByte : Obligations.UpdbAppendsOneByte := by
  intro d s hw
  refine ⟨fun hspent => ?_, fun hacc =>
    ⟨appendByte d s, exec_updb_acc d hacc, appendByte_total d s, ?_, ?_, ?_, ?_⟩⟩
  · rw [exec_updb, whileAccumulating_spent hspent]
  · rw [appendByte_buf, Memory.read_write_same hw]
  · intro a ha
    rw [appendByte_buf, Memory.read_write_other _ _ ha]
  · intro hc
    rw [appendByte_notFull d hc]
    rfl
  · intro hc
    have hrun : appendBytes [d] s = .next (appendByte d s) := appendBytes_cons_eq_next.mpr ⟨hacc, rfl⟩
    refine ⟨?_, appendByte_cur_full d hc ▸ appendBytes_frame hrun⟩
    rw [appendByte_h_full d hw hc, pending, hc]
    rfl

/-- Settles O26: the effects of a run of `UPDB`, one lemma each. -/
theorem updateInClosedForm : Obligations.UpdateInClosedForm := by
  intro data s hw hacc
  obtain ⟨t, ht, -⟩ := appendBytes_next data hacc
  obtain ⟨hh, hpending⟩ := appendBytes_blocks hw ht
  exact ⟨t, ht, appendBytes_total ht, appendBytes_cur ht, hh, hpending, fun a => appendBytes_read_other ht,
    appendBytes_frame ht, (execAll_updb data s).symm⟩

/-- Settles O27: no byte is no command, and the first `UPDB` of a run is refused in phase `SPENT`. -/
theorem updateAtItsEdges : Obligations.UpdateAtItsEdges := by
  refine fun d data s => ⟨exec_update [] s, fun hspent => ?_⟩
  rw [exec_update, appendBytes, whileAccumulating_spent hspent, andThen_refused]

/-- Settles O28: both sequences are the run of `UPDB` of the concatenation. -/
theorem chunkBoundariesDoNotMatter : Obligations.ChunkBoundariesDoNotMatter := fun chunks s =>
  ⟨execAll_update chunks s, execAll_updb chunks.flatten s⟩

end Sys2Proof.Proofs.StreamingAccumulator
end

section
/-! The obligations of `spec/42_finalizer.md`: `PAD`, `SERIALIZE`, `FIN`, `FINR` and `HASH`, and the digest of a
message. -/

namespace Sys2Proof.Proofs.Finalizer

open Sys2Proof.Machine Sys2Proof.Safety
open Sys2Proof.Laws.Canonical (decode_updb)
open Sys2Proof.Proofs.Encoding (exec_atBoundary updbWord_eq_add)
open Sys2Proof.Proofs.CompressionCore (execAll_append)
open Sys2Proof.Proofs.StreamingAccumulator

/-! ### The blocks the padding compresses -/

/-- Marker and zero fill up to `hi` stand after the waiting bytes (`spec/42_finalizer.md` R175, R176). -/
theorem take_block_zeroTail {s : State} (hw : s.buf.wf = true) {hi : Nat} (hc : s.cur.toNat < hi) (hhi : hi ≤ 64) :
    (block (zeroTail hi (putMarker s))).take hi =
      pending s ++ [0x80#8] ++ List.replicate (hi - 1 - s.cur.toNat) 0x00#8 := by
  apply List.ext_getElem
  · simp [pending_length, blockBytes]
    omega
  · intro k hk hb
    have hlt : k < hi := hk.trans_le (List.length_take_le _ _)
    have hbyte := zeroTail_getElem hw hlt hhi hc [] (by simpa [pending] using hb)
    rw [List.getElem_take, block_getElem, ← hbyte]
    simp [pending]

/-- The fresh second block begins with zero bytes (`spec/42_finalizer.md` R176). -/
theorem take_block_zeroHead {s : State} (hw : s.buf.wf = true) :
    (block (zeroHead s)).take lenFieldPos = List.replicate 56 0x00#8 := by
  apply List.ext_getElem
  · simp [blockBytes, lenFieldPos]
  · intro k hk _
    have hlt : k < lenFieldPos := hk.trans_le (List.length_take_le _ _)
    rw [List.getElem_take, block_getElem, zeroHead_buf, read_zeroFill_inside hw (Nat.zero_le k) (by omega) (by decide),
      List.getElem_replicate]

/-- The length field replaces the last eight bytes of the block (`spec/42_finalizer.md` R174). -/
theorem block_putLength {s : State} (hw : s.buf.wf = true) :
    block (putLength s) = (block s).take lenFieldPos ++ bytesOfNat 8 (bitLength s.total) := by
  apply List.ext_getElem
  · simp [blockBytes, lenFieldPos]
  · intro k hk _
    have hpos : ((block s).take lenFieldPos).length = lenFieldPos := by simp [blockBytes, lenFieldPos]
    rw [block_getElem, putLength_read hw (by simpa using hk)]
    split
    · next h => rw [List.getElem_append_left (by omega), List.getElem_take, block_getElem]
    · next h => rw [List.getElem_append_right (by omega), bytesOfNat_getElem, hpos]

/-- The one block of the padding (`spec/42_finalizer.md` R175). -/
theorem block_padMessage_one {s : State} (hw : s.buf.wf = true) (h : s.cur.toNat ≤ 55) :
    block (padMessage s) =
      pending s ++ [0x80#8] ++ List.replicate (55 - s.cur.toNat) 0x00#8 ++ bytesOfNat 8 (bitLength s.total) := by
  rw [padMessage_one h, padOneBlock, block_compress, block_putLength (zeroTail_wf (putMarker_wf hw) (by decide)),
    take_block_zeroTail hw (by simp only [lenFieldPos]; omega) (by decide)]
  rfl

theorem padMessage_h_one {s : State} (h : s.cur.toNat ≤ 55) :
    (padMessage s).h = compressBlock s.h (block (padMessage s)) := by
  rw [padMessage_one h, padOneBlock, compress_h, block_compress]
  rfl

/-- The second block of the padding, which the buffer then holds (`spec/42_finalizer.md` R176). -/
theorem block_padMessage_two {s : State} (hw : s.buf.wf = true) (h : 56 ≤ s.cur.toNat) :
    block (padMessage s) = List.replicate 56 0x00#8 ++ bytesOfNat 8 (bitLength s.total) := by
  have hfirst : (compress (zeroTail blockBytes (putMarker s))).buf.wf = true := by
    rw [compress_buf]
    exact zeroTail_wf (putMarker_wf hw) (Nat.le_refl _)
  rw [padMessage_two h, padTwoBlocks, block_compress, block_putLength (zeroHead_wf hfirst),
    take_block_zeroHead hfirst]
  simp

/-- The second compression starts from the `H` the first one committed (`spec/42_finalizer.md` R176). -/
theorem padMessage_h_two {s : State} (hw : s.buf.wf = true) (h : 56 ≤ s.cur.toNat) :
    (padMessage s).h =
      compressBlock
        (compressBlock s.h (pending s ++ [0x80#8] ++ List.replicate (63 - s.cur.toNat) 0x00#8))
        (block (padMessage s)) := by
  have hfirst : block (zeroTail blockBytes (putMarker s)) =
      pending s ++ [0x80#8] ++ List.replicate (63 - s.cur.toNat) 0x00#8 := by
    have htake := take_block_zeroTail hw (hi := blockBytes) s.cur.isLt (Nat.le_refl _)
    rwa [List.take_of_length_le (Nat.le_of_eq (block_length _))] at htake
  rw [padMessage_two h, padTwoBlocks, compress_h, block_compress, putLength_h, zeroHead_h, compress_h, hfirst]
  rfl

/-- Settles O29: the block the buffer holds is the one compressed. -/
theorem padOneBlockCompressesTheTail : Obligations.PadOneBlockCompressesTheTail := fun s hw h =>
  ⟨padMessage s, exec_pad s, block_padMessage_one hw h, padMessage_h_one h, padMessage_frame s⟩

/-- Settles O30: the two blocks, one lemma each. -/
theorem padTwoBlocksCompressesTwice : Obligations.PadTwoBlocksCompressesTwice := fun s hw h =>
  ⟨padMessage s, exec_pad s, block_padMessage_two hw h, padMessage_h_two hw h, padMessage_frame s⟩

/-! ### The padded message as a chain of blocks -/

/-- What follows a message of length `n` in its padded form, with `bits` in the length field
(`spec/42_finalizer.md` R187). -/
def padding (n bits : Nat) : List Byte :=
  [0x80#8] ++ List.replicate ((119 - n % 64) % 64) 0x00#8 ++ bytesOfNat 8 bits

theorem paddedMessage_eq (msg : List Byte) : paddedMessage msg = msg ++ padding msg.length (8 * msg.length) := by
  simp [paddedMessage, padding]

/-- A chain over one block. -/
theorem chainBlocks_one (h : Quad) {bs : List Byte} (hlen : bs.length = blockBytes) :
    chainBlocks 1 h bs = compressBlock h bs := by
  rw [chainBlocks, List.take_of_length_le (Nat.le_of_eq hlen), chainBlocks]

/-- A chain goes on from where a shorter one ended. -/
theorem chainBlocks_add (m n : Nat) (h : Quad) (bs : List Byte) :
    chainBlocks (m + n) h bs = chainBlocks n (chainBlocks m h bs) (bs.drop (64 * m)) := by
  induction m generalizing h bs with
  | zero => simp [chainBlocks]
  | succ m ih =>
    rw [Nat.add_right_comm, chainBlocks, ih, chainBlocks, List.drop_drop]
    exact congrArg (fun k => chainBlocks n _ (bs.drop k)) (Nat.add_comm blockBytes (64 * m))

/-- `PAD` compresses the waiting bytes and the padding, block by block, in one block or in two. -/
theorem padMessage_h {s : State} (hw : s.buf.wf = true) :
    (padMessage s).h =
      chainBlocks ((pending s ++ padding s.cur.toNat (bitLength s.total)).length / 64) s.h
        (pending s ++ padding s.cur.toNat (bitLength s.total)) := by
  have hlt := s.cur.isLt
  have hmod : s.cur.toNat % 64 = s.cur.toNat := Nat.mod_eq_of_lt hlt
  rcases Nat.lt_or_ge s.cur.toNat 56 with h | h
  · have hblock : pending s ++ padding s.cur.toNat (bitLength s.total) = block (padMessage s) := by
      rw [block_padMessage_one hw (by omega), padding, hmod, show (119 - s.cur.toNat) % 64 = 55 - s.cur.toNat by omega]
      simp only [List.append_assoc]
    rw [hblock, block_length, padMessage_h_one (by omega)]
    exact (chainBlocks_one _ (block_length _)).symm
  · have hblocks : pending s ++ padding s.cur.toNat (bitLength s.total) =
        (pending s ++ [0x80#8] ++ List.replicate (63 - s.cur.toNat) 0x00#8) ++ block (padMessage s) := by
      rw [block_padMessage_two hw h, padding, hmod,
        show (119 - s.cur.toNat) % 64 = 63 - s.cur.toNat + 56 by omega, List.replicate_add]
      simp only [List.append_assoc]
    have hfirst : (pending s ++ [0x80#8] ++ List.replicate (63 - s.cur.toNat) 0x00#8).length = blockBytes := by
      simp [pending_length, blockBytes]
      omega
    rw [hblocks, List.length_append, hfirst, block_length, padMessage_h_two hw h]
    exact ((chainBlocks_block_append 1 _ hfirst _).trans (chainBlocks_one _ (block_length _))).symm

theorem fresh_reinitialise (s : State) : Fresh (reinitialise s) := ⟨rfl, rfl, rfl, rfl⟩

/-- Below `2^61` bytes the bit length of a message fits the length field. -/
theorem bitLength_ofNat {n : Nat} (h : n < 2 ^ 61) : bitLength (BitVec.ofNat 64 n) = 8 * n := by
  simp only [bitLength, BitVec.toNat_ofNat]
  omega

/-- The chain over the padded message, cut after the full blocks of the message itself. -/
theorem messageDigest_eq (msg : List Byte) :
    messageDigest msg = digestOf
      (chainBlocks ((msg.drop (64 * (msg.length / 64)) ++ padding msg.length (8 * msg.length)).length / 64)
        (chainBlocks (msg.length / 64) iv msg)
        (msg.drop (64 * (msg.length / 64)) ++ padding msg.length (8 * msg.length))) := by
  have hfull : 64 * (msg.length / 64) ≤ msg.length := Nat.mul_div_le _ _
  have hrest : (paddedMessage msg).drop (64 * (msg.length / 64)) =
      msg.drop (64 * (msg.length / 64)) ++ padding msg.length (8 * msg.length) := by
    rw [paddedMessage_eq, List.drop_append_of_le_length hfull]
  have hfront : chainBlocks (msg.length / 64) iv (paddedMessage msg) = chainBlocks (msg.length / 64) iv msg := by
    rw [paddedMessage_eq]
    exact chainBlocks_congr _ _ (List.take_append_of_le_length hfull)
  have hcount : (paddedMessage msg).length / 64 =
      msg.length / 64 + ((paddedMessage msg).drop (64 * (msg.length / 64))).length / 64 := by
    have : msg.length ≤ (paddedMessage msg).length := by simp [paddedMessage_eq]
    rw [List.length_drop]
    omega
  rw [messageDigest, blockBytes, hcount, chainBlocks_add, hfront, hrest]

/-- What a Fresh unit holds of a message: its full blocks in `H`, the rest waiting, its length in both counters. -/
theorem appendBytes_fresh {msg : List Byte} {f u : State} (hf : Fresh f) (hw : f.buf.wf = true)
    (hu : appendBytes msg f = .next u) :
    u.h = chainBlocks (msg.length / 64) iv msg ∧ pending u = msg.drop (64 * (msg.length / 64)) ∧
    u.cur.toNat = msg.length % 64 ∧ u.total = BitVec.ofNat 64 msg.length := by
  obtain ⟨-, hcur, htotal, hiv⟩ := hf
  obtain ⟨hh, hpending⟩ := appendBytes_blocks hw hu
  have hucur := appendBytes_cur hu
  have hutotal := appendBytes_total hu
  have hzero : f.cur.toNat = 0 := by rw [hcur]; rfl
  rw [hzero, Nat.zero_add] at hh hpending hucur
  rw [pending_of_cur_zero hcur, List.nil_append] at hh hpending
  rw [htotal, BitVec.zero_add] at hutotal
  exact ⟨hiv ▸ hh, hpending, hucur, hutotal⟩

/-- The full blocks of a message are compressed as it arrives and the rest by `PAD`: together the chain over the
padded message from `IV` (`spec/42_finalizer.md` R187). -/
theorem digestOf_padMessage {msg : List Byte} {f u : State} (hf : Fresh f) (hw : f.buf.wf = true)
    (hlen : msg.length < 2 ^ 61) (hu : appendBytes msg f = .next u) :
    digestOf (padMessage u).h = messageDigest msg := by
  obtain ⟨hh, hpending, hcur, htotal⟩ := appendBytes_fresh hf hw hu
  have hpadding : padding u.cur.toNat (bitLength u.total) = padding msg.length (8 * msg.length) := by
    rw [htotal, bitLength_ofNat hlen, hcur, padding, Nat.mod_mod, padding]
  rw [padMessage_h (ArchState.appendBytes_wf hw hu), hpadding, hpending, hh, messageDigest_eq]

/-! ### `SERIALIZE`, `FIN` and `FINR` -/

/-- Byte `4w + k` of the digest is byte `k` of word `w` (`spec/42_finalizer.md` R178). -/
theorem digestOf_getElem (q : Quad) (w k : Fin 4) :
    (digestOf q)[4 * w.val + k.val]'(by omega) = wordByte #v[q.a, q.b, q.c, q.d][w] k := by
  fin_cases w <;> fin_cases k <;> rfl

/-- Settles O32: byte by byte, with the shift of `wordByte` written as the division of R178. -/
theorem serializeWritesTheDigest : Obligations.SerializeWritesTheDigest := by
  refine fun s => ⟨serialize s, exec_serialize s, fun w k => ?_, rfl⟩
  rw [← Nat.shiftRight_eq_div_pow]
  exact digestOf_getElem s.h w k

/-- Settles O34: `FIN` in phase `ACC` is `PAD; SERIALIZE` and the phase change, none of which touches the port. -/
theorem finPadsSerializesAndSpends : Obligations.FinPadsSerializesAndSpends := by
  refine fun s => ⟨fun hspent => ?_, fun hacc =>
    ⟨padMessage s, finalise s, markSpent (finalise s), exec_pad s, exec_serialize _, exec_fin_acc hacc, ?_⟩⟩
  · rw [exec_fin, whileAccumulating_spent hspent]
  · simp

/-- Settles O35: `FINR` in phase `ACC` is `PAD; SERIALIZE` and the writes of `NEW`, none of which touches the
port. -/
theorem finrPadsSerializesAndReinitialises : Obligations.FinrPadsSerializesAndReinitialises := by
  refine fun s => ⟨fun hspent => ?_, fun hacc =>
    ⟨padMessage s, finalise s, reinitialise (finalise s), exec_pad s, exec_serialize _, exec_finr_acc hacc, ?_⟩⟩
  · rw [exec_finr, whileAccumulating_spent hspent]
  · simp [iv]

theorem execAll_singleton (i : Instr) (s : State) : execAll [i] s = exec i s := by
  rw [execAll]
  cases exec i s <;> rfl

/-- Settles O36: the writes of `NEW` undo the phase change of `FIN`. -/
theorem finrIsFinThenNew : Obligations.FinrIsFinThenNew := by
  refine fun s hacc =>
    ⟨reinitialise (finalise s), reinitialise (markSpent (finalise s)), exec_finr_acc hacc, ?_, ?_⟩
  · rw [execAll, exec_fin_acc hacc, andThen_next, execAll_singleton, exec_new]
  · simp

/-! ### `HASH` -/

theorem exec_hash_eq_execAll (data : List Byte) (s : State) :
    exec (.hash data) s = execAll [.new, .update data, .fin] s := by
  rw [exec_hash, execAll, exec_new, andThen_next, execAll, exec_update, funext (execAll_singleton .fin)]

/-- `HASH` pads and serialises what the run of `UPDB` after `NEW` left. -/
theorem exec_hash_next {data : List Byte} {s u : State} (hu : appendBytes data (reinitialise s) = .next u) :
    exec (.hash data) s = .next (markSpent (finalise u)) := by
  have hacc : u.phase = .acc := (ArchState.appendBytes_keeps hu).1
  rw [exec_hash, hu, andThen_next, exec_fin_acc hacc]

/-- Settles O37: `NEW` makes the unit accumulate, so `UPDATE` and `FIN` complete. -/
theorem hashIsNewUpdateFin : Obligations.HashIsNewUpdateFin := by
  intro data s
  obtain ⟨u, hu, -⟩ := appendBytes_next data (reinitialise_phase s)
  refine ⟨exec_hash_eq_execAll data s, padMessage u, markSpent (finalise u), ?_, exec_hash_next hu, by simp⟩
  rw [execAll, exec_new, andThen_next, execAll, exec_update, hu, andThen_next, execAll_singleton, exec_pad]

/-- Settles O38: `NEW` makes the unit Fresh, and from there the padded chain is the digest. -/
theorem hashComputesTheMessageDigest : Obligations.HashComputesTheMessageDigest := by
  intro msg s hw hlen
  obtain ⟨u, hu, -⟩ := appendBytes_next msg (reinitialise_phase s)
  have hdigest := digestOf_padMessage (fresh_reinitialise s) hw hlen hu
  exact ⟨_, exec_hash_next hu, by simp [hdigest], by simp, rfl⟩

/-! ### The commands of a message -/

/-- The expansion of `HASH` runs as `HASH` (`spec/42_finalizer.md` R186, `spec/30_encoding.md` R100). -/
theorem execAll_expansion_hash (msg : List Byte) (s : State) :
    execAll (expansion (.hash msg)) s = exec (.hash msg) s := by
  rw [expansion, List.cons_append, execAll, exec_new, andThen_next, execAll_append, execAll_updb,
    funext (execAll_singleton .fin), exec_hash]

/-- The command words of a message decode to the expansion of `HASH` (`spec/30_encoding.md` R102). -/
theorem map_decodeCmd_messageWords (msg : List Byte) :
    (0x000#10 :: msg.map (fun d => 0x100#10 + d.setWidth 10) ++ [0x200#10]).map decodeCmd =
      expansion (.hash msg) := by
  have hupdb : ∀ d : Byte, decodeCmd (0x100#10 + d.setWidth 10) = .updb d := fun d => by
    rw [← updbWord_eq_add]
    exact decode_updb d
  have hnew : decodeCmd 0x000#10 = .new := by decide
  have hfin : decodeCmd 0x200#10 = .fin := by decide
  simp [expansion, Function.comp_def, hupdb, hnew, hfin]

/-- Settles O39: the stream of words runs as the expansion of `HASH`, and no instruction touches the port. -/
theorem commandStreamComputesTheMessageDigest : Obligations.CommandStreamComputesTheMessageDigest := by
  intro msg s hw hs hlen
  obtain ⟨t, ht, hdigest, hdvalid, hphase⟩ :=
    hashComputesTheMessageDigest msg { s with inbox := [] } hw hlen
  obtain ⟨hbusy, -, -⟩ := exec_atBoundary (s := { s with inbox := [] }) hs ht
  obtain ⟨-, -, -, hinbox⟩ := exec_port ht
  have hrun := run_commands (0x000#10 :: msg.map (fun d => 0x100#10 + d.setWidth 10) ++ [0x200#10]) hs
  rw [map_decodeCmd_messageWords, execAll_expansion_hash, ht] at hrun
  refine ⟨t, ?_, hinbox, hphase, ?_⟩
  · simpa using hrun
  · simp [observe, ready, digestPort, hbusy, hdvalid, hdigest]

/-- A Fresh unit given a message and `FINR` shows the digest of the message. -/
theorem execAll_update_finr {msg : List Byte} {f : State} (hf : Fresh f) (hw : f.buf.wf = true)
    (hlen : msg.length < 2 ^ 61) :
    ∃ t, execAll [.update msg, .finr] f = .next t ∧ t.digest = messageDigest msg := by
  obtain ⟨u, hu, hacc⟩ := appendBytes_next msg hf.1
  refine ⟨reinitialise (finalise u), ?_, ?_⟩
  · rw [execAll, exec_update, hu, andThen_next, execAll_singleton, exec_finr_acc hacc]
  · rw [reinitialise_digest, finalise_digest, digestOf_padMessage hf hw hlen hu]

/-- Settles O40: `FINR` and `NEW` both leave a Fresh unit. -/
theorem finrThenTheSameInputGivesTheSameDigest : Obligations.FinrThenTheSameInputGivesTheSameDigest := by
  intro msg s hw hacc hlen
  have hwf : (reinitialise (finalise s)).buf.wf = true := by simpa using padMessage_wf hw
  obtain ⟨t, ht, htdigest⟩ := execAll_update_finr (fresh_reinitialise (finalise s)) hwf hlen
  obtain ⟨u, hu, hudigest⟩ := execAll_update_finr (fresh_reinitialise s) hw hlen
  refine ⟨t, u, ?_, ?_, htdigest, hudigest⟩
  · rw [execAll, exec_finr_acc hacc, andThen_next, ht]
  · rw [execAll, exec_new, andThen_next, hu]

end Sys2Proof.Proofs.Finalizer
end

section
/-! The obligations of `spec/60_exceptions.md`: which instructions complete, what a consumed unit refuses, and the
command streams that have a meaning. -/

namespace Sys2Proof.Proofs.Exceptions

open Sys2Proof.Machine Sys2Proof.Safety
open Sys2Proof.Proofs.Encoding (exec_atBoundary command_spent)
open Sys2Proof.Proofs.CompressionCore (execAll_append)
open Sys2Proof.Proofs.Finalizer (execAll_singleton exec_hash_next)

/-! ### Single instructions -/

/-- Settles O41: the phase check is the first action of the three commands, and `NEW` has none. -/
theorem spentUnitAcceptsOnlyNew : Obligations.SpentUnitAcceptsOnlyNew := by
  refine fun s => ⟨fun hspent => ⟨fun d => ?_, ?_, ?_⟩, fun hacc =>
    ⟨fun d => ⟨_, exec_updb_acc d hacc⟩, ⟨_, exec_fin_acc hacc⟩, ⟨_, exec_finr_acc hacc⟩⟩,
    reinitialise s, exec_new s, reinitialise_phase s⟩
  · rw [exec_updb, whileAccumulating_spent hspent]
  · rw [exec_fin, whileAccumulating_spent hspent]
  · rw [exec_finr, whileAccumulating_spent hspent]

/-- Settles O42: only the four rows excepted check the phase; `HASH` begins with `NEW`, and no other row can stop. -/
theorem everyInstructionCompletes : Obligations.EveryInstructionCompletes := by
  intro i s h
  cases i with
  | updb d =>
    have hacc := h.resolve_right fun ⟨_, _, hupdb, _⟩ => hupdb d rfl
    exact ⟨_, exec_updb_acc d hacc⟩
  | fin =>
    have hacc := h.resolve_right fun ⟨hfin, _⟩ => hfin rfl
    exact ⟨_, exec_fin_acc hacc⟩
  | finr =>
    have hacc := h.resolve_right fun ⟨_, hfinr, _⟩ => hfinr rfl
    exact ⟨_, exec_finr_acc hacc⟩
  | update data =>
    cases data with
    | nil => exact ⟨s, exec_update [] s⟩
    | cons d ds =>
      have hacc := h.resolve_right fun ⟨_, _, _, hupdate⟩ => hupdate d ds rfl
      obtain ⟨t, ht, -⟩ := appendBytes_next (d :: ds) hacc
      exact ⟨t, ht⟩
  | hash data =>
    obtain ⟨u, hu, -⟩ := appendBytes_next data (reinitialise_phase s)
    exact ⟨_, exec_hash_next hu⟩
  | _ => exact ⟨_, rfl⟩

/-- Where a command has a meaning it completes, and it leaves a consumed unit exactly when it is `FIN`
(`spec/60_exceptions.md` R204, `spec/10_state.md` R33). -/
theorem command_next (w : BitVec 10) {s : State} (h : s.phase = .acc ∨ decodeCmd w = .new) :
    ∃ t, exec (decodeCmd w) s = .next t ∧ (t.phase = .spent ↔ decodeCmd w = .fin) := by
  rcases decodeCmd_cases w with hd | ⟨d, hd⟩ | hd | hd <;> rw [hd] at h ⊢
  · exact ⟨_, exec_new s, by simp⟩
  · have hacc := h.resolve_right nofun
    exact ⟨_, exec_updb_acc d hacc, by simp [hacc]⟩
  · have hacc := h.resolve_right nofun
    exact ⟨_, exec_fin_acc hacc, by simp⟩
  · have hacc := h.resolve_right nofun
    exact ⟨_, exec_finr_acc hacc, by simp⟩

/-! ### The first commands of a stream -/

/-- The head of a stream runs as its instruction, and the rest of the stream is still to come. -/
theorem step_withCommands_cons (w : BitVec 10) (ws : List (BitVec 10)) {s : State} (h : AtBoundary s) :
    step (withCommands (w :: ws) s) = mapNext (withCommands ws) (exec (decodeCmd w) s) := by
  obtain ⟨hb, -, ho⟩ := h
  have hport : { withCommands (w :: ws) s with inbox := ws.map .command, offered := none } =
      setInbox (ws.map .command) s := by
    rw [setInbox, withCommands, ← ho]
  rw [step_command (s := withCommands (w :: ws) s) hb (.inl ho) rfl, hport]
  exact exec_setInbox (decodeCmd w) _ s

/-- The first `n` steps of a stream run its first `n` instructions; the other words are still to come. -/
theorem runSteps_withCommands {n : Nat} {ws : List (BitVec 10)} (hn : n ≤ ws.length) {s : State} (h : AtBoundary s) :
    runSteps n (withCommands ws s) =
      mapNext (withCommands (ws.drop n)) (execAll ((ws.take n).map decodeCmd) s) := by
  induction n generalizing ws s with
  | zero => rfl
  | succ n ih =>
    cases ws with
    | nil => exact absurd hn (Nat.not_succ_le_zero n)
    | cons w ws =>
      rw [runSteps, step_withCommands_cons w ws h, List.take_succ_cons, List.drop_succ_cons, List.map_cons, execAll]
      cases hexec : exec (decodeCmd w) s with
      | next t => exact ih (Nat.le_of_succ_le_succ hn) (exec_atBoundary h hexec)
      | fault f => rfl
      | refused e => rfl

/-! ### The discipline of R205 -/

/-- The discipline relates neighbours only. -/
theorem finThenNew_iff_isChain (is : List Instr) :
    finThenNew is ↔ is.IsChain fun i j => i = .fin → j = .new := by
  induction is with
  | nil => simp [finThenNew]
  | cons i is ih =>
    cases is with
    | nil => simp [finThenNew]
    | cons j js => rw [finThenNew, ih, List.isChain_cons_cons]

/-- One more command keeps to the discipline unless it follows a `FIN` and is not `NEW`. -/
theorem finThenNew_append_singleton (is : List Instr) (j : Instr) :
    finThenNew (is ++ [j]) ↔ finThenNew is ∧ (is.getLast? = some .fin → j = .new) := by
  rw [finThenNew_iff_isChain, finThenNew_iff_isChain, List.isChain_append, and_iff_right (List.isChain_singleton j)]
  refine and_congr_right fun _ => ⟨fun h hlast => h _ hlast j rfl rfl, ?_⟩
  rintro h _ hlast _ ⟨⟩ rfl
  exact h hlast

/-- A stream that breaks the discipline has a first command that breaks it. -/
theorem exists_first_offence {ws : List (BitVec 10)} (h : ¬ finThenNew (ws.map decodeCmd)) :
    ∃ n, n < ws.length ∧ finThenNew ((ws.take n).map decodeCmd) ∧
      ¬ finThenNew ((ws.take (n + 1)).map decodeCmd) := by
  obtain ⟨n, hkept, hbroken⟩ := Nat.exists_not_and_succ_of_not_zero_of_exists
    (p := fun n => ¬ finThenNew ((ws.take n).map decodeCmd)) (by simp [finThenNew]) ⟨ws.length, by simpa using h⟩
  refine ⟨n, ?_, not_not.mp hkept, hbroken⟩
  by_contra hlen
  rw [List.take_of_length_le (by omega)] at hkept
  exact hkept h

/-- A stream that keeps to the discipline runs through from a live accumulator, and ends with a consumed unit
exactly when its last command is `FIN`. -/
theorem execAll_of_finThenNew (ws : List (BitVec 10)) {s : State} (hacc : s.phase = .acc)
    (h : finThenNew (ws.map decodeCmd)) :
    ∃ t, execAll (ws.map decodeCmd) s = .next t ∧
      (t.phase = .spent ↔ (ws.map decodeCmd).getLast? = some .fin) := by
  induction ws using List.reverseRecOn with
  | nil => exact ⟨s, rfl, by simp [hacc]⟩
  | append_singleton ws w ih =>
    rw [List.map_append, List.map_singleton] at h ⊢
    obtain ⟨hws, hw⟩ := (finThenNew_append_singleton _ _).mp h
    obtain ⟨t, ht, hspent⟩ := ih hws
    have hmeaning : t.phase = .acc ∨ decodeCmd w = .new := by
      cases hp : t.phase with
      | acc => exact .inl rfl
      | spent => exact .inr (hw (hspent.mp hp))
    obtain ⟨u, hu, hphase⟩ := command_next w hmeaning
    refine ⟨u, ?_, ?_⟩
    · rw [execAll_append, ht, andThen_next, execAll_singleton, hu]
    · rw [hphase, List.getLast?_concat, Option.some_inj]

/-- The first command that breaks the discipline follows a `FIN`, so the unit is consumed and refuses it. -/
theorem execAll_first_offence {ws : List (BitVec 10)} {w : BitVec 10} {s : State} (hacc : s.phase = .acc)
    (hkept : finThenNew (ws.map decodeCmd)) (hbroken : ¬ finThenNew ((ws ++ [w]).map decodeCmd)) :
    execAll ((ws ++ [w]).map decodeCmd) s = .refused .consumed := by
  rw [List.map_append, List.map_singleton] at hbroken ⊢
  obtain ⟨t, ht, hspent⟩ := execAll_of_finThenNew ws hacc hkept
  have hoffence : ¬ ((ws.map decodeCmd).getLast? = some .fin → decodeCmd w = .new) := fun h =>
    hbroken ((finThenNew_append_singleton _ _).mpr ⟨hkept, h⟩)
  obtain ⟨hfin, hnew⟩ := Classical.not_imp.mp hoffence
  obtain ⟨-, hrefused⟩ := command_spent w (hspent.mpr hfin) hnew
  rw [execAll_append, ht, andThen_next, execAll_singleton, hrefused]

/-- Settles O59: the first `n` words run as their instructions for every `n`, and the first offence is refused. -/
theorem legalStreamsAreNeverRefused : Obligations.LegalStreamsAreNeverRefused := by
  refine fun ws s hs hacc => ⟨fun hlegal => ?_, fun hillegal => ?_⟩
  · obtain ⟨t, ht, -⟩ := execAll_of_finThenNew ws hacc hlegal
    rw [runSteps_withCommands le_rfl hs, List.take_length, ht]
    exact ⟨_, rfl⟩
  · obtain ⟨n, hn, hkept, hbroken⟩ := exists_first_offence hillegal
    obtain ⟨t, ht, -⟩ := execAll_of_finThenNew (ws.take n) hacc hkept
    refine ⟨n, hn, hkept, hbroken, ?_, ?_⟩
    · rw [runSteps_withCommands hn.le hs, ht]
      exact ⟨_, rfl⟩
    · rw [List.take_succ_eq_append_getElem hn] at hbroken
      rw [runSteps_withCommands hn hs, List.take_succ_eq_append_getElem hn, execAll_first_offence hacc hkept hbroken,
        mapNext_refused]

end Sys2Proof.Proofs.Exceptions
end

section
/-! The obligations of `spec/70_reset_and_hazards.md`: reset, a busy unit, idle time, and the digest outputs. -/

namespace Sys2Proof.Proofs.ResetAndHazards

open Sys2Proof.Machine Sys2Proof.Safety
open Sys2Proof.Proofs.Finalizer (execAll_singleton fresh_reinitialise)

/-! ### Reset -/

/-- Settles O46: every value is the one `State.reset` lists, and the empty buffer is canonical. -/
theorem resetStateIsFresh : Obligations.ResetStateIsFresh := by
  have hfresh : Fresh State.reset := ⟨rfl, rfl, rfl, rfl⟩
  have hboundary : AtBoundary State.reset := ⟨rfl, rfl, rfl⟩
  have hcanonical : State.reset.buf.wf = true := rfl
  exact ⟨rfl, rfl, rfl, rfl, rfl, rfl, hfresh, hboundary, hcanonical⟩

/-- An edge with `rst = 1` resets the unit whatever it was doing (`spec/70_reset_and_hazards.md` R231). -/
theorem step_reset_edge (s : State) {e : Edge} (later : List Event) (hr : e.rst = true) :
    step { s with inbox := .edge e :: later } = .next (hardReset { s with inbox := later }) := by
  simp only [step, onEdge, hr, if_true]

/-- Settles O47: the reset edge is `hardReset`, which reads nothing of what it overwrites. -/
theorem resetEdgeWinsFromAnyState : Obligations.ResetEdgeWinsFromAnyState := by
  intro s e later hr
  refine ⟨hardReset { s with inbox := later }, step_reset_edge s later hr, ?_⟩
  simp [iv]

theorem fresh_hardReset (s : State) : Fresh (hardReset s) := ⟨rfl, rfl, rfl, rfl⟩

/-- Settles O48: all three end in the writes of `NEW`, which leave `DVALID` and `DIGEST` alone; only reset clears
`DVALID`, and only `FINR` serialises before. -/
theorem threeWaysToAFreshAccumulator : Obligations.ThreeWaysToAFreshAccumulator := by
  intro s e later hr
  refine ⟨⟨_, step_reset_edge s later hr, fresh_hardReset _, by simp⟩,
    ⟨reinitialise s, exec_new s, fresh_reinitialise s, by simp⟩, fun hacc => ?_⟩
  exact ⟨padMessage s, finalise s, reinitialise (finalise s), exec_pad s, exec_serialize _, exec_finr_acc hacc,
    fresh_reinitialise _, by simp⟩

/-! ### A busy unit -/

/-- The store of `UPDB` writes the counter and the one byte at the cursor (`spec/41_streaming_accumulator.md` R152). -/
theorem storeByte_eq (d : Byte) (s : State) :
    storeByte d s = { s with total := s.total + 1#64, buf := s.buf.write s.cur.toNat d } := by
  rw [storeByte, memWrite_one]

/-- The marker is the one byte at the cursor (`spec/42_finalizer.md` R172). -/
theorem putMarker_eq (s : State) : putMarker s = { s with buf := s.buf.write s.cur.toNat 0x80#8 } := by
  rw [putMarker, ← memWrite_one]
  rfl

/-- The zero fill after the marker is one `MemWrite` of 0 (`spec/42_finalizer.md` R175, R176). -/
theorem zeroTail_eq (hi : Nat) (s : State) :
    zeroTail hi s = { s with buf := memWrite s.buf (s.cur.toNat + 1) (hi - (s.cur.toNat + 1)) 0 } := by
  rw [zeroTail, zeroFill_eq_memWrite]

/-- The head of the second padding block is one `MemWrite` of 0 (`spec/42_finalizer.md` R176). -/
theorem zeroHead_eq (s : State) : zeroHead s = { s with buf := memWrite s.buf 0 lenFieldPos 0 } := by
  rw [zeroHead, zeroFill_eq_memWrite]

/-- The end of `FINR` is `SERIALIZE` and then `NEW` (`spec/42_finalizer.md` R184). -/
theorem runMicro_serializeRenew (s : State) : runMicro .serializeRenew s = execAll [.serialize, .new] s := by
  rw [runMicro, execAll, funext (execAll_singleton .new)]

/-- An edge at which no micro-operation completes only records the word offered
(`spec/70_reset_and_hazards.md` R240). -/
theorem step_busy_wait {s : State} {e : Edge} {later : List Event} (hb : s.busy = true) (hr : e.rst = false)
    (ho : s.offered = none ∨ (e.valid = true ∧ s.offered = some e.cmd)) (ha : e.advance = false) :
    step { s with inbox := .edge e :: later } =
      .next { s with inbox := later, offered := if e.valid then some e.cmd else none } := by
  rw [step_busy_edge hb hr ho, ha, if_neg Bool.false_ne_true]

theorem advance_eq_runMicro {s : State} {m : Micro} {rest : List Micro} (h : s.todo = m :: rest) :
    advance s = runMicro m { s with todo := rest, busy := !rest.isEmpty } := by
  rw [advance_cons h, runMicro_eq]

/-- An edge at which a micro-operation completes runs it on a unit that holds the word offered and has the rest
left to do. -/
theorem step_busy_advance {s : State} {e : Edge} {later : List Event} {m : Micro} {rest : List Micro}
    (hb : s.busy = true) (hr : e.rst = false)
    (ho : s.offered = none ∨ (e.valid = true ∧ s.offered = some e.cmd)) (ha : e.advance = true)
    (htodo : s.todo = m :: rest) :
    step { s with inbox := .edge e :: later } =
      runMicro m { s with inbox := later, offered := if e.valid then some e.cmd else none, todo := rest,
                          busy := !rest.isEmpty } := by
  rw [step_busy_edge hb hr ho, if_pos ha]
  exact advance_eq_runMicro htodo

/-- A command event waits while the unit is busy: its word is recorded as held, and the command in progress goes
on (notes/assumptions/3.md). -/
theorem step_busy_command {s : State} {w : BitVec 10} {later : List Event} (hb : s.busy = true)
    (ho : s.offered = none ∨ s.offered = some w) :
    step { s with inbox := .command w :: later } =
      advance { s with inbox := .command w :: later, offered := some w } := by
  have hh : ∀ u : State, u.offered = s.offered → holdBroken true w u = false := fun u hu => by
    rcases ho with ho | ho <;> simp [holdBroken, hu, ho]
  simp [step, onCommand, hh, hb]

/-- Settles O53: a busy edge waits or completes one micro-operation, and a command event is such an edge. -/
theorem busyUnitLeavesTheOfferedCommand : Obligations.BusyUnitLeavesTheOfferedCommand := by
  refine fun s later hb => ⟨fun e hr ho => ⟨step_busy_wait hb hr ho, fun ha m rest htodo => ?_⟩, fun w ho => ?_⟩
  · dsimp only
    rw [step_busy_advance hb hr ho ha htodo]
    cases m with
    | store d => exact congrArg _ (storeByte_eq d _)
    | marker => exact congrArg _ (putMarker_eq _)
    | zeroToLength => exact congrArg _ (zeroTail_eq lenFieldPos _)
    | zeroToEnd => exact congrArg _ (zeroTail_eq blockBytes _)
    | zeroHead => exact congrArg _ (zeroHead_eq _)
    | serializeRenew => exact runMicro_serializeRenew _
    | _ => rfl
  · rw [step_busy_command hb ho, step_busy_edge hb rfl (ho.imp_right fun h => ⟨rfl, h⟩)]
    rfl

/-! ### Idle time and the outputs -/

/-- With nothing offered and nothing held, an edge at a command boundary leaves the unit as it was. -/
theorem onEdge_idle {s : State} {e : Edge} (h : AtBoundary s) (hr : e.rst = false) (hv : e.valid = false) :
    onEdge e s = .next s := by
  obtain ⟨hb, -, ho⟩ := h
  have hheld : ({ s with busy := false, offered := none } : State) = s := by rw [← hb, ← ho]
  simp [onEdge, hr, hv, holdBroken, ho, hb, hheld]

/-- Settles O55: an event that is missing is an idle edge too. -/
theorem idleEdgesHoldTheState : Obligations.IdleEdgesHoldTheState := by
  intro s e later h hr hv
  have hedge : step { s with inbox := .edge e :: later } = .next { s with inbox := later } :=
    onEdge_idle (s := { s with inbox := later }) h hr hv
  have hnone : step { s with inbox := [] } = .next { s with inbox := [] } :=
    onEdge_idle (s := { s with inbox := [] }) (e := idleEdge) h rfl rfl
  exact ⟨hedge, hnone⟩

/-- What the host observes of the digest (`spec/70_reset_and_hazards.md` R242). -/
theorem observe_digest (s : State) :
    (observe s).digest = if s.dvalid = true ∧ s.busy = false then some (digestPort s) else none := by
  simp [observe, ready]

/-- Settles O56: the port is readable exactly under the guard of the observation. -/
theorem digestIsReadOnlyWhenItIsThere : Obligations.DigestIsReadOnlyWhenItIsThere := by
  intro s
  refine ⟨rfl, rfl, ?_⟩
  rw [observe_digest]
  by_cases h : s.dvalid = true ∧ s.busy = false
  · simp [h]
  · simp [h]

end Sys2Proof.Proofs.ResetAndHazards
end
